-- ==== Sys2Proof/Word.lean ====
section
/-! DEFINITION. The widths of the values the hardware works on (spec/00_scope.md R6, R7, R15). Nothing here is signed (R15). -/

namespace Sys2Proof

/-- One byte, the unit of input (R6). -/
abbrev Byte := BitVec 8

/-- A 16-bit value: the polynomial, the initial value, the final XOR, the accumulator, a table entry, the digest (R6) and a
text character (`CHARW`, R7). -/
abbrev Half := BitVec 16

/-- A word of a command packet (`CW` = 32, R7, R70). -/
abbrev Word := BitVec 32

/-- An address of the buffer space (`AW` = 32, R7, R51). Address addition is `BitVec` addition, modulo 2^32 (R17). -/
abbrev Addr := BitVec 32

end Sys2Proof
end

