-- ==== Sys2Proof/Syntax.lean ====
section
/-! DEFINITION. The thirteen commands (spec/30_encoding.md R79), one constructor per row of spec/opcode_table.json, with the operand
fields of their formats (R72 to R78). -/

namespace Sys2Proof

/-- A command with its operand fields (R81: every operand is a field copied from the packet bit for bit). -/
inductive Instr where
  /-- `CONSTRUCT`, format K (R72). -/
  | construct (refin refout : Bool) (poly init xorout : Half)
  /-- `PRESET.ARC`, format V, `VARIANT` 0 (R73, R80). -/
  | presetArc
  /-- `PRESET.IEEE8023`, `VARIANT` 1. -/
  | presetIeee8023
  /-- `PRESET.CCITT`, `VARIANT` 2. -/
  | presetCcitt
  /-- `PRESET.KERMIT`, `VARIANT` 3. -/
  | presetKermit
  /-- `PRESET.X25`, `VARIANT` 4. -/
  | presetX25
  /-- `PRESET.XMODEM`, `VARIANT` 5. -/
  | presetXmodem
  /-- `PRESET.ZMODEM`, `VARIANT` 6. -/
  | presetZmodem
  /-- `APPEND`, format B (R74): `p` a buffer is supplied, `r` the sub-range is given. -/
  | append (p r : Bool) (base buflen offset length : Word)
  /-- `APPENDT`, format T (R75): `p` a text is supplied, `enc` two bytes per character. -/
  | appendt (p enc : Bool) (base nchars : Word)
  /-- `DIGEST`, format N (R76). -/
  | digest
  /-- `REV8`, format R8 (R77). -/
  | rev8 (val8 : Byte)
  /-- `REV16`, format R16 (R78). -/
  | rev16 (val16 : Half)
  deriving DecidableEq, Repr

end Sys2Proof
end

