-- ==== Sys2Proof/WellFormed.lean ====
section
/-! DEFINITION. Well-formed commands: the ignored fields of spec/30_encoding.md R83 hold 0, as an assembler writes them (R86) and as
the decoder leaves them (93_implementation_defined.md U13: the decoder drops them). Every other field may hold any value. -/

namespace Sys2Proof

/-- `APPEND`: with `P` = 0 the flag `R` and all four operand words are ignored; with `R` = 0 `OFFSET` and `LENGTH` are (R83). -/
def appendFieldsOk (p r : Bool) (base buflen offset length : Word) : Bool :=
  match p, r with
  | true, true => true
  | true, false => offset == 0#32 && length == 0#32
  | false, r => !r && base == 0#32 && buflen == 0#32 && offset == 0#32 && length == 0#32

/-- `APPENDT`: with `P` = 0 `BASE` and `NCHARS` are ignored (R83); `ENC` is decoded all the same (20_memory.md R53). -/
def appendtFieldsOk (p : Bool) (base nchars : Word) : Bool :=
  p || (base == 0#32 && nchars == 0#32)

/-- Every ignored field is 0 (R83, R86). -/
def WellFormed : Instr → Bool
  | .construct _ _ _ _ _ => true
  | .presetArc => true
  | .presetIeee8023 => true
  | .presetCcitt => true
  | .presetKermit => true
  | .presetX25 => true
  | .presetXmodem => true
  | .presetZmodem => true
  | .append p r base buflen offset length => appendFieldsOk p r base buflen offset length
  | .appendt p _ base nchars => appendtFieldsOk p base nchars
  | .digest => true
  | .rev8 _ => true
  | .rev16 _ => true

end Sys2Proof
end

