-- ==== Sys2Proof/Decode.lean ====
section
/-! DEFINITION. The decoder of spec/30_encoding.md R84 with the packet lengths of R70, the dropped fields of R83, the rejections of R82
by name, and the encoder of R72 to R78 after it. -/

namespace Sys2Proof

/-- Why a header word is an illegal encoding (R82). -/
inductive IllegalWhy where
  /-- `OPC` is 0x0 or 0x8 to 0xF. -/
  | reservedOpcode
  /-- A reserved bit of the header word is 1 (R71, R72 to R78). -/
  | reservedBit
  /-- `OPC` = 0x2 and `VARIANT` = 7 (R80). -/
  | reservedVariant
  deriving DecidableEq, Repr

/-- What the header word says (R84), before the operand words are read. -/
inductive Header where
  | construct (refin refout : Bool)
  | preset (i : Instr)
  | append (p r : Bool)
  | appendt (p enc : Bool)
  | digest
  | rev8 (val8 : Byte)
  | rev16 (val16 : Half)
  | illegal (why : IllegalWhy)
  deriving DecidableEq, Repr

/-- What a list of words, the first of them a header word, holds. -/
inductive Decoded where
  /-- A whole packet of a command. -/
  | instr (i : Instr)
  /-- A whole packet whose header word is an illegal encoding (R82). -/
  | illegal (why : IllegalWhy)
  /-- Fewer words than the header's `OPC` says the packet has (R70), or none: not a packet yet. -/
  | incomplete
  deriving DecidableEq, Repr

/-- `OPC` = `w0[31:28]` (R70, R71). -/
def opcOf (w0 : Word) : BitVec 4 := w0.extractLsb' 28 4

/-- The number of words of a packet, decided by `OPC` alone, whatever the other bits of the header are (R70). -/
def packetWords (w0 : Word) : Nat :=
  if opcOf w0 = 0x1#4 then 3
  else if opcOf w0 = 0x3#4 then 5
  else if opcOf w0 = 0x4#4 then 3
  else 1

/-- The preset of a `VARIANT` code (R80); 7 is reserved. -/
def presetOf (v : BitVec 3) : Header :=
  if v = 0#3 then .preset .presetArc
  else if v = 1#3 then .preset .presetIeee8023
  else if v = 2#3 then .preset .presetCcitt
  else if v = 3#3 then .preset .presetKermit
  else if v = 4#3 then .preset .presetX25
  else if v = 5#3 then .preset .presetXmodem
  else if v = 6#3 then .preset .presetZmodem
  else .illegal .reservedVariant

/-- The decoder of R84 on the header word: the fields of the format where its reserved bits are 0, else an illegal encoding. -/
def decodeHeader (w0 : Word) : Header :=
  if opcOf w0 = 0x1#4 then
    if w0.extractLsb' 2 26 = 0#26 then .construct (w0.getLsbD 0) (w0.getLsbD 1) else .illegal .reservedBit
  else if opcOf w0 = 0x2#4 then
    if w0.extractLsb' 3 25 = 0#25 then presetOf (w0.extractLsb' 0 3) else .illegal .reservedBit
  else if opcOf w0 = 0x3#4 then
    if w0.extractLsb' 2 26 = 0#26 then .append (w0.getLsbD 0) (w0.getLsbD 1) else .illegal .reservedBit
  else if opcOf w0 = 0x4#4 then
    if w0.extractLsb' 2 26 = 0#26 then .appendt (w0.getLsbD 0) (w0.getLsbD 1) else .illegal .reservedBit
  else if opcOf w0 = 0x5#4 then
    if w0.extractLsb' 0 28 = 0#28 then .digest else .illegal .reservedBit
  else if opcOf w0 = 0x6#4 then
    if w0.extractLsb' 8 20 = 0#20 then .rev8 (w0.extractLsb' 0 8) else .illegal .reservedBit
  else if opcOf w0 = 0x7#4 then
    if w0.extractLsb' 16 12 = 0#12 then .rev16 (w0.extractLsb' 0 16) else .illegal .reservedBit
  else .illegal .reservedOpcode

/-- `CONSTRUCT` from its two operand words: `w1` = `INIT`:`POLY`, `w2[15:0]` = `XOROUT`, `w2[31:16]` ignored (R72, R83). -/
def constructOf (refin refout : Bool) (w1 w2 : Word) : Instr :=
  .construct refin refout (w1.extractLsb' 0 16) (w1.extractLsb' 16 16) (w2.extractLsb' 0 16)

/-- `APPEND` from its four operand words (R74), the ignored fields of R83 dropped. -/
def appendOf (p r : Bool) (w1 w2 w3 w4 : Word) : Instr :=
  match p, r with
  | true, true => .append true true w1 w2 w3 w4
  | true, false => .append true false w1 w2 0#32 0#32
  | false, _ => .append false false 0#32 0#32 0#32 0#32

/-- `APPENDT` from its two operand words (R75), the ignored fields of R83 dropped. -/
def appendtOf (p enc : Bool) (w1 w2 : Word) : Instr :=
  match p with
  | true => .appendt true enc w1 w2
  | false => .appendt false enc 0#32 0#32

/-- The command of a legal header with the operand words after it (R72 to R78). -/
def decodeOperands (h : Header) (w1 w2 w3 w4 : Word) : Decoded :=
  match h with
  | .construct refin refout => .instr (constructOf refin refout w1 w2)
  | .preset i => .instr i
  | .append p r => .instr (appendOf p r w1 w2 w3 w4)
  | .appendt p enc => .instr (appendtOf p enc w1 w2)
  | .digest => .instr .digest
  | .rev8 v => .instr (.rev8 v)
  | .rev16 v => .instr (.rev16 v)
  | .illegal why => .illegal why

/-- Operand word `k` + 1 of a packet. -/
def operandWord (ops : List Word) (k : Nat) : Word := ops.getD k 0#32

/-- The decoder: total on every list of words (R84). It reads the first packet of the list; words after it are the next packets'. -/
def decode : List Word → Decoded
  | [] => .incomplete
  | w0 :: ops =>
    if ops.length + 1 < packetWords w0 then .incomplete
    else decodeOperands (decodeHeader w0) (operandWord ops 0) (operandWord ops 1) (operandWord ops 2) (operandWord ops 3)

/-! ### The encoder (R72 to R78) -/

/-- The header word of formats K, B and T: `OPC`, 26 reserved zeros, the flags of bit 1 and bit 0 (R72, R74, R75). -/
def flagsHeader (opc : BitVec 4) (bit1 bit0 : Bool) : Word :=
  opc ++ 0#26 ++ BitVec.ofBool bit1 ++ BitVec.ofBool bit0

/-- The words of a command's packet, header word first (R72 to R78); an ignored field of `CONSTRUCT` is written 0 (R86). -/
def encode : Instr → List Word
  | .construct refin refout poly init xorout => [flagsHeader 0x1#4 refout refin, init ++ poly, 0#16 ++ xorout]
  | .presetArc => [0x20000000#32]
  | .presetIeee8023 => [0x20000001#32]
  | .presetCcitt => [0x20000002#32]
  | .presetKermit => [0x20000003#32]
  | .presetX25 => [0x20000004#32]
  | .presetXmodem => [0x20000005#32]
  | .presetZmodem => [0x20000006#32]
  | .append p r base buflen offset length => [flagsHeader 0x3#4 r p, base, buflen, offset, length]
  | .appendt p enc base nchars => [flagsHeader 0x4#4 enc p, base, nchars]
  | .digest => [0x50000000#32]
  | .rev8 v => [0x600000#24 ++ v]
  | .rev16 v => [0x7000#16 ++ v]

/-! ### The opcode map (R79) -/

/-- A row of the opcode map: mnemonic, words, mask and match of the header word. -/
structure OpcodeRow where
  mnemonic : String
  words : Nat
  mask : Word
  value : Word
  deriving DecidableEq, Repr

/-- The thirteen rows of R79, as spec/opcode_table.json has them. -/
def opcodeMap : List OpcodeRow :=
  [⟨"CONSTRUCT", 3, 0xFFFFFFFC#32, 0x10000000#32⟩,
   ⟨"PRESET.ARC", 1, 0xFFFFFFFF#32, 0x20000000#32⟩,
   ⟨"PRESET.IEEE8023", 1, 0xFFFFFFFF#32, 0x20000001#32⟩,
   ⟨"PRESET.CCITT", 1, 0xFFFFFFFF#32, 0x20000002#32⟩,
   ⟨"PRESET.KERMIT", 1, 0xFFFFFFFF#32, 0x20000003#32⟩,
   ⟨"PRESET.X25", 1, 0xFFFFFFFF#32, 0x20000004#32⟩,
   ⟨"PRESET.XMODEM", 1, 0xFFFFFFFF#32, 0x20000005#32⟩,
   ⟨"PRESET.ZMODEM", 1, 0xFFFFFFFF#32, 0x20000006#32⟩,
   ⟨"APPEND", 5, 0xFFFFFFFC#32, 0x30000000#32⟩,
   ⟨"APPENDT", 3, 0xFFFFFFFC#32, 0x40000000#32⟩,
   ⟨"DIGEST", 1, 0xFFFFFFFF#32, 0x50000000#32⟩,
   ⟨"REV8", 1, 0xFFFFFF00#32, 0x60000000#32⟩,
   ⟨"REV16", 1, 0xFFFF0000#32, 0x70000000#32⟩]

/-- A header word selects a row when its masked bits are the row's match (R79). -/
def OpcodeRow.selects (row : OpcodeRow) (w0 : Word) : Bool := w0 &&& row.mask == row.value

/-- The mnemonic of a command (R79). -/
def mnemonicOf : Instr → String
  | .construct _ _ _ _ _ => "CONSTRUCT"
  | .presetArc => "PRESET.ARC"
  | .presetIeee8023 => "PRESET.IEEE8023"
  | .presetCcitt => "PRESET.CCITT"
  | .presetKermit => "PRESET.KERMIT"
  | .presetX25 => "PRESET.X25"
  | .presetXmodem => "PRESET.XMODEM"
  | .presetZmodem => "PRESET.ZMODEM"
  | .append _ _ _ _ _ _ => "APPEND"
  | .appendt _ _ _ _ => "APPENDT"
  | .digest => "DIGEST"
  | .rev8 _ => "REV8"
  | .rev16 _ => "REV16"

/-! ### The host's words -/

/-- The packet whose bits are `w`, numbered as spec/opcode_table.json numbers them: bit 0 is the least significant bit of the header
word, word k holds bits 32k+31 .. 32k, and every bit from `nbits` on is 0. As many words as the header's `OPC` says (R70). -/
def tableWords (nbits w : Nat) : List Word :=
  (List.range (packetWords (BitVec.ofNat 32 (w % 2 ^ nbits)))).map
    (fun k => BitVec.ofNat 32 ((w % 2 ^ nbits) >>> (32 * k)))

/-- The command this decoder reads from a packet whose bits are `w` (none where it rejects it). -/
def decodeTableWord (nbits w : Nat) : Option Instr :=
  match decode (tableWords nbits w) with
  | .instr i => some i
  | .illegal _ => none
  | .incomplete => none

end Sys2Proof
end

