-- ==== Sys2Proof/Config.lean ====
section
/-! DEFINITION. What the spec leaves open: the one OPEN parameter of spec/00_scope.md R7, `NARROW_HI`. -/

namespace Sys2Proof

/-- DESIGN CHOICE (log 6), safe. `NARROW_HI` (spec/41_append.md R126, 92 D15, 93 U7): the byte folded for a character above 0x00FF in
single-byte text mode, a total function of the character alone that the spec leaves open. It has no body, so no proof can
use a value of it. -/
opaque Config.narrowHi : Half → Byte

end Sys2Proof
end

