-- ==== Sys2Proof/Machine/State.lean ====
section
/-! DEFINITION. The state of one engine with what the host gives it, as plain data (spec/10_state.md R23 to R42, spec/20_memory.md R51,
spec/00_scope.md R14), the reasons a step can stop, and the state after reset (R42, R220). -/

namespace Sys2Proof.Machine

/-- `CFG`, the five-field configuration (R23 to R28), written whole by a construction. -/
structure Cfg where
  /-- `CFG.POLY` (R24). -/
  poly : Half
  /-- `CFG.INIT` (R25). -/
  init : Half
  /-- `CFG.REFIN` (R26). -/
  refin : Bool
  /-- `CFG.REFOUT` (R27). -/
  refout : Bool
  /-- `CFG.XOROUT` (R28). -/
  xorout : Half
  deriving DecidableEq, Repr

/-- One engine instance (R31): what holds a value exactly while `VALID` = 1 (R30). -/
structure Engine where
  /-- `CFG` (R23). -/
  cfg : Cfg
  /-- `TABLE[0..255]` (R33). -/
  table : Vector Half 256
  /-- `REG`, the accumulator (R32). -/
  reg : Half
  deriving DecidableEq, Repr

/-- The outcome of a command (spec/60_exceptions.md R190). -/
inductive Status where
  | ok
  | invalidInput
  | rangeError
  | illegalCommand
  deriving DecidableEq, Repr

/-- The response to a packet: `STATUS` and `DATA` (R39). -/
structure Response where
  status : Status
  data : Half
  deriving DecidableEq, Repr

/-- What the host can do to the block (spec/00_scope.md R14). -/
inductive HostMove where
  /-- Assert the reset input (spec/70_reset_and_hazards.md R220). -/
  | reset
  /-- Write one byte of the buffer space (R51, R61). -/
  | write (addr : Addr) (value : Byte)
  /-- Send one word of a packet on the command channel (spec/30_encoding.md R70, 92 D2). -/
  | word (w : Word)
  deriving DecidableEq, Repr

/-- The whole state. Plain data. -/
structure State where
  /-- The engine instance, absent while the engine is unconstructed: R42 says `CFG`, `TABLE` and `REG` then hold no value and are to
  be modelled as absent. `VALID` is whether it is there (log 4). -/
  engine : Option Engine
  /-- The buffer space (R51): address and byte, in the canonical form of `Memory.wf`. -/
  mem : List Host.Cell
  /-- The response most recently returned; none after reset (R39, R42). No command reads it (log 3). -/
  rsp : Option Response
  /-- The host's moves to come, the next one first (R14, R21: the order in which the host issues packets). The model's own field
  (log 2). -/
  host : List HostMove
  deriving DecidableEq, Repr

/-- Why the machine stops with a fault: never. "nothing is fatal to the process" (R12, R194): every error is a response, with a next
state. No constructor (log 11). -/
inductive Fault where
  deriving DecidableEq, Repr

/-- Why a step has no meaning. -/
inductive Refusal where
  /-- A command that has no meaning yet. Raised by no arm of `exec`. Safe. -/
  | notModelled (mnemonic : String)
  /-- The host writes the buffer space between the words of one packet, which the host may not do (R14, R61; 93 U10: a model refuses
  it). Raised by `step` only, never by a command. Safe (log 9). -/
  | hostProtocol
  deriving DecidableEq, Repr

/-- After reset: no engine instance (`VALID` = 0), no response pending (R42, R220). Of the fields that are not the engine's: the buffer
space lists nothing (log 1) and the host has no move to make (log 2). -/
def State.reset : State := { engine := none, mem := [], rsp := none, host := [] }

end Sys2Proof.Machine
end

