-- ==== Sys2Proof/Machine/Ops.lean ====
section
/-! DEFINITION. The named operations: the buffer space, the updates of State, the bit-reversal unit (spec/42_bit_reversal.md), the table
builder and construction (spec/40_table_builder_construct.md), the two ways a command ends (spec/00_scope.md R18: respond, raise), reset
(spec/70_reset_and_hazards.md R220) and the host's write. -/

namespace Sys2Proof.Machine

/-! ### The buffer space (spec/20_memory.md R50, R51) -/

/-- DESIGN CHOICE (log 1), unsafe. What a byte of the buffer space that the host has not written reads as. R51 makes every address
readable and leaves the content to the host; 0x00 is the convention of spec/95_test_vectors.md. -/
def Memory.unlisted : Byte := 0#8

/-- The canonical form above a bound: addresses strictly rising from `lo`, inside the space, no entry equal to what an unlisted
address reads as. -/
def Memory.wfFrom : Nat → List Host.Cell → Bool
  | _, [] => true
  | lo, (k, b) :: m => decide (lo ≤ k) && decide (k < 2 ^ 32) && (b != Memory.unlisted) && Memory.wfFrom (k + 1) m

/-- The canonical form of the buffer space. -/
def Memory.wf (m : List Host.Cell) : Bool := Memory.wfFrom 0 m

/-- The byte listed at an address, or what an unlisted address reads as. -/
def Memory.lookup : List Host.Cell → Nat → Byte
  | [], _ => Memory.unlisted
  | (k, b) :: m, a => if k = a then b else Memory.lookup m a

/-- The list with one byte set, the canonical form kept. -/
def Memory.insert : List Host.Cell → Nat → Byte → List Host.Cell
  | [], a, b => if b = Memory.unlisted then [] else [(a, b)]
  | (k, c) :: m, a, b =>
    if a < k then (if b = Memory.unlisted then (k, c) :: m else (a, b) :: (k, c) :: m)
    else if a = k then (if b = Memory.unlisted then m else (a, b) :: m)
    else (k, c) :: Memory.insert m a b

/-- `MemRead(addr, 1)` = `MEM(addr)` (R18, R51): every address is readable. -/
def Memory.read (m : List Host.Cell) (a : Addr) : Byte := Memory.lookup m a.toNat

/-- The host's write of one byte (R14, R61). The engine has no write (R51). -/
def Memory.write (m : List Host.Cell) (a : Addr) (b : Byte) : List Host.Cell := Memory.insert m a.toNat b

/-! ### State -/

/-- `VALID` (spec/10_state.md R30): an engine instance is there. -/
def State.valid (s : State) : Bool := s.engine.isSome

/-- Replace the engine instance. -/
def State.setEngine (s : State) (e : Option Engine) : State := { s with engine := e }

/-- Replace the response most recently returned. -/
def State.setRsp (s : State) (r : Option Response) : State := { s with rsp := r }

/-- Replace the buffer space. -/
def State.setMem (s : State) (m : List Host.Cell) : State := { s with mem := m }

/-- Replace the host's moves to come. -/
def State.setHost (s : State) (h : List HostMove) : State := { s with host := h }

/-- The same instance with another `REG` (R32). -/
def Engine.setReg (e : Engine) (r : Half) : Engine := { e with reg := r }

/-- `INV_IN` = `!CFG.REFIN` (R29). -/
def invIn (c : Cfg) : Bool := !c.refin

/-- `INV_OUT` = `!CFG.REFOUT` (R29). -/
def invOut (c : Cfg) : Bool := !c.refout

/-! ### How a command ends (R18, R39) -/

/-- `respond(OK, d)` (R18): the command's writes stand, the response is (`OK`, d). -/
def respond (s : State) (d : Half) : Host.Outcome State Fault Refusal :=
  .next (s.setRsp (some { status := .ok, data := d }))

/-- `raise` (R18) and so taking an exception (spec/60_exceptions.md R197): the error response (STATUS, 0x0000) and nothing more. `s` is
the state before the command: no write of it has been made. There is no return from it (R198). -/
def raise (s : State) (st : Status) : Host.Outcome State Fault Refusal :=
  .next (s.setRsp (some { status := st, data := 0#16 }))

/-! ### The bit-reversal unit (spec/42_bit_reversal.md) -/

/-- Entry `i` of a 256-entry table (spec/20_memory.md R50: an 8-bit index). -/
def entry {α : Type} (t : Vector α 256) (i : Byte) : α := t[i.toNat]'(i.isLt)

/-- The contents of `REV8ROM`, row by row as R141 lists them. -/
def rev8RomEntries : List Byte :=
  [0x00#8, 0x80#8, 0x40#8, 0xC0#8, 0x20#8, 0xA0#8, 0x60#8, 0xE0#8, 0x10#8, 0x90#8, 0x50#8, 0xD0#8, 0x30#8, 0xB0#8, 0x70#8, 0xF0#8]
    ++ [0x08#8, 0x88#8, 0x48#8, 0xC8#8, 0x28#8, 0xA8#8, 0x68#8, 0xE8#8, 0x18#8, 0x98#8, 0x58#8, 0xD8#8, 0x38#8, 0xB8#8, 0x78#8, 0xF8#8]
    ++ [0x04#8, 0x84#8, 0x44#8, 0xC4#8, 0x24#8, 0xA4#8, 0x64#8, 0xE4#8, 0x14#8, 0x94#8, 0x54#8, 0xD4#8, 0x34#8, 0xB4#8, 0x74#8, 0xF4#8]
    ++ [0x0C#8, 0x8C#8, 0x4C#8, 0xCC#8, 0x2C#8, 0xAC#8, 0x6C#8, 0xEC#8, 0x1C#8, 0x9C#8, 0x5C#8, 0xDC#8, 0x3C#8, 0xBC#8, 0x7C#8, 0xFC#8]
    ++ [0x02#8, 0x82#8, 0x42#8, 0xC2#8, 0x22#8, 0xA2#8, 0x62#8, 0xE2#8, 0x12#8, 0x92#8, 0x52#8, 0xD2#8, 0x32#8, 0xB2#8, 0x72#8, 0xF2#8]
    ++ [0x0A#8, 0x8A#8, 0x4A#8, 0xCA#8, 0x2A#8, 0xAA#8, 0x6A#8, 0xEA#8, 0x1A#8, 0x9A#8, 0x5A#8, 0xDA#8, 0x3A#8, 0xBA#8, 0x7A#8, 0xFA#8]
    ++ [0x06#8, 0x86#8, 0x46#8, 0xC6#8, 0x26#8, 0xA6#8, 0x66#8, 0xE6#8, 0x16#8, 0x96#8, 0x56#8, 0xD6#8, 0x36#8, 0xB6#8, 0x76#8, 0xF6#8]
    ++ [0x0E#8, 0x8E#8, 0x4E#8, 0xCE#8, 0x2E#8, 0xAE#8, 0x6E#8, 0xEE#8, 0x1E#8, 0x9E#8, 0x5E#8, 0xDE#8, 0x3E#8, 0xBE#8, 0x7E#8, 0xFE#8]
    ++ [0x01#8, 0x81#8, 0x41#8, 0xC1#8, 0x21#8, 0xA1#8, 0x61#8, 0xE1#8, 0x11#8, 0x91#8, 0x51#8, 0xD1#8, 0x31#8, 0xB1#8, 0x71#8, 0xF1#8]
    ++ [0x09#8, 0x89#8, 0x49#8, 0xC9#8, 0x29#8, 0xA9#8, 0x69#8, 0xE9#8, 0x19#8, 0x99#8, 0x59#8, 0xD9#8, 0x39#8, 0xB9#8, 0x79#8, 0xF9#8]
    ++ [0x05#8, 0x85#8, 0x45#8, 0xC5#8, 0x25#8, 0xA5#8, 0x65#8, 0xE5#8, 0x15#8, 0x95#8, 0x55#8, 0xD5#8, 0x35#8, 0xB5#8, 0x75#8, 0xF5#8]
    ++ [0x0D#8, 0x8D#8, 0x4D#8, 0xCD#8, 0x2D#8, 0xAD#8, 0x6D#8, 0xED#8, 0x1D#8, 0x9D#8, 0x5D#8, 0xDD#8, 0x3D#8, 0xBD#8, 0x7D#8, 0xFD#8]
    ++ [0x03#8, 0x83#8, 0x43#8, 0xC3#8, 0x23#8, 0xA3#8, 0x63#8, 0xE3#8, 0x13#8, 0x93#8, 0x53#8, 0xD3#8, 0x33#8, 0xB3#8, 0x73#8, 0xF3#8]
    ++ [0x0B#8, 0x8B#8, 0x4B#8, 0xCB#8, 0x2B#8, 0xAB#8, 0x6B#8, 0xEB#8, 0x1B#8, 0x9B#8, 0x5B#8, 0xDB#8, 0x3B#8, 0xBB#8, 0x7B#8, 0xFB#8]
    ++ [0x07#8, 0x87#8, 0x47#8, 0xC7#8, 0x27#8, 0xA7#8, 0x67#8, 0xE7#8, 0x17#8, 0x97#8, 0x57#8, 0xD7#8, 0x37#8, 0xB7#8, 0x77#8, 0xF7#8]
    ++ [0x0F#8, 0x8F#8, 0x4F#8, 0xCF#8, 0x2F#8, 0xAF#8, 0x6F#8, 0xEF#8, 0x1F#8, 0x9F#8, 0x5F#8, 0xDF#8, 0x3F#8, 0xBF#8, 0x7F#8, 0xFF#8]

/-- `REV8ROM[0..255]` (spec/10_state.md R34, R141): constant, so no field of State (log 5). -/
def rev8Rom : Vector Byte 256 := ⟨⟨rev8RomEntries⟩, by decide +kernel⟩

/-- `REV8(b)` = `REV8ROM[b]` (R140). -/
def rev8 (b : Byte) : Byte := entry rev8Rom b

/-- `REV16(v)` = {REV8(v[7:0]), REV8(v[15:8])} (R142). -/
def rev16 (v : Half) : Half := rev8 (v.extractLsb' 0 8) ++ rev8 (v.extractLsb' 8 8)

/-! ### The table builder and construction (spec/40_table_builder_construct.md) -/

/-- One of the 8 iterations of R100: the test is of bit 0 before the shift; the shift is logical (R16). -/
def tableStep (rp w : Half) : Half := if w.getLsbD 0 then (w >>> 1) ^^^ rp else w >>> 1

/-- `n` iterations of R100. -/
def tableSteps (rp : Half) : Nat → Half → Half
  | 0, w => w
  | n + 1, w => tableSteps rp n (tableStep rp w)

/-- The entry `TableBuild` stores for the index `i`, from the reflected polynomial (R100). -/
def tableEntry (rp : Half) (i : Nat) : Half := tableSteps rp 8 (BitVec.ofNat 16 i)

/-- The 256 entries from the reflected polynomial. -/
def tableOfReflected (rp : Half) : Vector Half 256 := ⟨⟨(List.range 256).map (tableEntry rp)⟩, by simp⟩

/-- `TableBuild(p)` (R100): the polynomial is reversed once, for every variant (90_conflicts.md C1). -/
def tableBuild (p : Half) : Vector Half 256 := tableOfReflected (rev16 p)

/-- The fresh instance `Construct` makes (R104): `REG` receives `INIT` as given, not reversed. -/
def freshEngine (c : Cfg) : Engine := { cfg := c, table := tableBuild c.poly, reg := c.init }

/-- `Construct(p, init, ri, ro, x)`, then `respond(OK, 0x0000)` (R104, R105, R161): all of `CFG`, `TABLE`, `REG` and `VALID` at once,
in every state (R31). -/
def construct (c : Cfg) (s : State) : Host.Outcome State Fault Refusal :=
  respond (s.setEngine (some (freshEngine c))) 0#16

/-! ### Reset and the host's write -/

/-- The reset event (spec/70_reset_and_hazards.md R220): `VALID` = 0, `CFG`, `REG`, `TABLE` hold no value, no response pending. The
buffer space is the host's and keeps its content (R51). -/
def takeReset (s : State) : State := (s.setEngine none).setRsp none

/-- The host writes one byte of the buffer space (R14, R61). -/
def hostWrite (s : State) (a : Addr) (b : Byte) : State := s.setMem (Memory.write s.mem a b)

end Sys2Proof.Machine
end

