-- ==== Sys2Proof/Machine/Operands.lean ====
section
/-! DEFINITION. The operand forms: the byte buffer and its sub-range (spec/20_memory.md R52, spec/41_append.md R122, R123), the text and
its characters (R53, R126), and the per-byte update with the loops over them (R120, R124, R125). The other operand form, the immediate
field, needs no operation (spec/30_encoding.md R81). -/

namespace Sys2Proof.Machine

/-- The effective sub-range (`off`, `len`) of `APPEND`, natural numbers (R122). -/
def effectiveRange (r : Bool) (buflen offset length : Word) : Nat × Nat :=
  if r then (offset.toNat, length.toNat) else (0, buflen.toNat)

/-- The range check: `off + len <= BUFLEN`, the sum in the natural numbers (R17, R123). -/
def inBounds (range : Nat × Nat) (buflen : Word) : Bool := decide (range.1 + range.2 ≤ buflen.toNat)

/-- The address of byte `off` of a buffer: `(BASE + off) mod 2^AW` (R52, R54). -/
def bufferAddr (base : Addr) (off : Nat) : Addr := base + BitVec.ofNat 32 off

/-- The adjusted byte of R120: the byte as it is when `REFIN` = 1, reversed when `REFIN` = 0. -/
def adjustedByte (c : Cfg) (b : Byte) : Byte := if c.refin then b else rev8 b

/-- `Fold(r, b)` (R120): `(r >> 8) ^ TABLE[r[7:0] ^ a]`. It reads `CFG.REFIN` and `TABLE` of the instance. -/
def fold (e : Engine) (r : Half) (b : Byte) : Half :=
  (r >>> 8) ^^^ entry e.table (r.extractLsb' 0 8 ^^^ adjustedByte e.cfg b)

/-- The loop of `APPEND` (R124): fold `n` bytes from ascending addresses starting at `a` (R54, R55), wrapping modulo 2^32. -/
def foldBytes (e : Engine) (m : List Host.Cell) : Nat → Addr → Half → Half
  | 0, _, r => r
  | n + 1, a, r => foldBytes e m n (a + 1#32) (fold e r (Memory.read m a))

/-- `NARROW(c)` (R126): the code itself below 0x0100, the open parameter `NARROW_HI` above (log 6). -/
def narrow (c : Half) : Byte :=
  if c.extractLsb' 8 8 = 0#8 then c.extractLsb' 0 8 else Sys2Proof.Config.narrowHi c

/-- Fold one character whose bytes are `hi` and `lo` (R125): two bytes, the more significant first, or the narrowed one. -/
def foldChar (e : Engine) (enc : Bool) (r : Half) (hi lo : Byte) : Half :=
  if enc then fold e (fold e r hi) lo else fold e r (narrow (hi ++ lo))

/-- The loop of `APPENDT` (R125): fold `n` characters, each at two ascending addresses, the more significant byte at the lower (R53). -/
def foldChars (e : Engine) (m : List Host.Cell) (enc : Bool) : Nat → Addr → Half → Half
  | 0, _, r => r
  | n + 1, a, r =>
    foldChars e m enc n (a + 2#32) (foldChar e enc r (Memory.read m a) (Memory.read m (a + 1#32)))

/-- A command that writes only `REG` and responds (`OK`, 0x0000) (R124, R125). -/
def commitReg (s : State) (e : Engine) (r : Half) : Host.Outcome State Fault Refusal :=
  respond (s.setEngine (some (e.setReg r))) 0#16

end Sys2Proof.Machine
end

