-- ==== Sys2Proof/Machine/Append.lean ====
section
/-! DEFINITION. `APPEND` and `APPENDT` (spec/41_append.md R124, R125). The checks come in the order of spec/60_exceptions.md R196 and
before the first read (spec/20_memory.md R54). -/

namespace Sys2Proof.Machine

/-- `APPEND` (R124): `IllegalCommand` while `VALID` = 0, `InvalidInput` when no buffer is supplied, `RangeError` when the sub-range is
out of bounds, else the bytes of the sub-range are folded into `REG`. -/
def execAppend (p r : Bool) (base buflen offset length : Word) (s : State) : Host.Outcome State Fault Refusal :=
  match s.engine with
  | none => raise s .illegalCommand
  | some e =>
    if !p then raise s .invalidInput
    else if !inBounds (effectiveRange r buflen offset length) buflen then raise s .rangeError
    else commitReg s e (foldBytes e s.mem (effectiveRange r buflen offset length).2
      (bufferAddr base (effectiveRange r buflen offset length).1) e.reg)

/-- `APPENDT` (R125): `IllegalCommand` while `VALID` = 0, `InvalidInput` when no text is supplied, else the characters are folded into
`REG`. -/
def execAppendt (p enc : Bool) (base nchars : Word) (s : State) : Host.Outcome State Fault Refusal :=
  match s.engine with
  | none => raise s .illegalCommand
  | some e =>
    if !p then raise s .invalidInput
    else commitReg s e (foldChars e s.mem enc nchars.toNat base e.reg)

end Sys2Proof.Machine
end

