-- ==== Sys2Proof/Machine/Construct.lean ====
section
/-! DEFINITION. `CONSTRUCT` (spec/40_table_builder_construct.md R105). -/

namespace Sys2Proof.Machine

/-- `CONSTRUCT` (R105): `Construct` with the packet's five fields. Every value and combination is legal, in every state. -/
def execConstruct (refin refout : Bool) (poly init xorout : Half) (s : State) : Host.Outcome State Fault Refusal :=
  construct { poly := poly, init := init, refin := refin, refout := refout, xorout := xorout } s

end Sys2Proof.Machine
end

