-- ==== Sys2Proof/Machine/Digest.lean ====
section
/-! DEFINITION. `DIGEST` (spec/43_digest.md R150, R151). -/

namespace Sys2Proof.Machine

/-- `Digest()` (R150): `REG`, reversed first when `REFOUT` = 0, XOR `XOROUT`. -/
def digestOf (e : Engine) : Half :=
  if e.cfg.refout then e.reg ^^^ e.cfg.xorout else rev16 e.reg ^^^ e.cfg.xorout

/-- `DIGEST` (R151): `IllegalCommand` while `VALID` = 0, else the digest; no state changes. -/
def execDigest (s : State) : Host.Outcome State Fault Refusal :=
  match s.engine with
  | none => raise s .illegalCommand
  | some e => respond s (digestOf e)

end Sys2Proof.Machine
end

