-- ==== Sys2Proof/Machine/Preset.lean ====
section
/-! DEFINITION. The seven presets (spec/44_variant_catalog.md R160 to R168): the source's parameter rows, each with its command. The rows
are the source's even where a name is used elsewhere for other parameters (90_conflicts.md C8). -/

namespace Sys2Proof.Machine

/-- Row `ARC` of R160. -/
def cfgArc : Cfg := { poly := 0x8005#16, init := 0x0000#16, refin := true, refout := true, xorout := 0x0000#16 }

/-- Row `IEEE8023` of R160: the parameters of `ARC` under a second name (90_conflicts.md C4). -/
def cfgIeee8023 : Cfg := { poly := 0x8005#16, init := 0x0000#16, refin := true, refout := true, xorout := 0x0000#16 }

/-- Row `CCITT` of R160. -/
def cfgCcitt : Cfg := { poly := 0x1021#16, init := 0xFFFF#16, refin := false, refout := false, xorout := 0x0000#16 }

/-- Row `KERMIT` of R160. -/
def cfgKermit : Cfg := { poly := 0x1021#16, init := 0x0000#16, refin := true, refout := true, xorout := 0x0000#16 }

/-- Row `X25` of R160. -/
def cfgX25 : Cfg := { poly := 0x1021#16, init := 0xFFFF#16, refin := true, refout := true, xorout := 0xFFFF#16 }

/-- Row `XMODEM` of R160. -/
def cfgXmodem : Cfg := { poly := 0x8408#16, init := 0x0000#16, refin := true, refout := true, xorout := 0x0000#16 }

/-- Row `ZMODEM` of R160. -/
def cfgZmodem : Cfg := { poly := 0x1021#16, init := 0x0000#16, refin := false, refout := false, xorout := 0x0000#16 }

/-- `PRESET.ARC` (R162). -/
def execPresetArc (s : State) : Host.Outcome State Fault Refusal := construct cfgArc s

/-- `PRESET.IEEE8023` (R163). -/
def execPresetIeee8023 (s : State) : Host.Outcome State Fault Refusal := construct cfgIeee8023 s

/-- `PRESET.CCITT` (R164). -/
def execPresetCcitt (s : State) : Host.Outcome State Fault Refusal := construct cfgCcitt s

/-- `PRESET.KERMIT` (R165). -/
def execPresetKermit (s : State) : Host.Outcome State Fault Refusal := construct cfgKermit s

/-- `PRESET.X25` (R166). -/
def execPresetX25 (s : State) : Host.Outcome State Fault Refusal := construct cfgX25 s

/-- `PRESET.XMODEM` (R167). -/
def execPresetXmodem (s : State) : Host.Outcome State Fault Refusal := construct cfgXmodem s

/-- `PRESET.ZMODEM` (R168). -/
def execPresetZmodem (s : State) : Host.Outcome State Fault Refusal := construct cfgZmodem s

end Sys2Proof.Machine
end

