-- ==== Sys2Proof/Machine/Reversal.lean ====
section
/-! DEFINITION. `REV8` and `REV16` (spec/42_bit_reversal.md R144, R145): pure, legal whether or not an engine is constructed. -/

namespace Sys2Proof.Machine

/-- `REV8` (R144): `DATA` is the reversed byte, zero-extended. -/
def execRev8 (v : Byte) (s : State) : Host.Outcome State Fault Refusal := respond s ((rev8 v).setWidth 16)

/-- `REV16` (R145). -/
def execRev16 (v : Half) (s : State) : Host.Outcome State Fault Refusal := respond s (rev16 v)

end Sys2Proof.Machine
end

