-- ==== Sys2Proof/Machine/Dispatch.lean ====
section
/-! DEFINITION. The meaning of each command, one arm per constructor of Instr. -/

namespace Sys2Proof.Machine

def exec (i : Instr) (s : State) : Host.Outcome State Fault Refusal :=
  match i with
  | .construct refin refout poly init xorout => Sys2Proof.Machine.execConstruct refin refout poly init xorout s
  | .presetArc => Sys2Proof.Machine.execPresetArc s
  | .presetIeee8023 => Sys2Proof.Machine.execPresetIeee8023 s
  | .presetCcitt => Sys2Proof.Machine.execPresetCcitt s
  | .presetKermit => Sys2Proof.Machine.execPresetKermit s
  | .presetX25 => Sys2Proof.Machine.execPresetX25 s
  | .presetXmodem => Sys2Proof.Machine.execPresetXmodem s
  | .presetZmodem => Sys2Proof.Machine.execPresetZmodem s
  | .append p r base buflen offset length => Sys2Proof.Machine.execAppend p r base buflen offset length s
  | .appendt p enc base nchars => Sys2Proof.Machine.execAppendt p enc base nchars s
  | .digest => Sys2Proof.Machine.execDigest s
  | .rev8 val8 => Sys2Proof.Machine.execRev8 val8 s
  | .rev16 val16 => Sys2Proof.Machine.execRev16 val16 s

end Sys2Proof.Machine
end

