-- ==== Sys2Proof/Machine/Fetch.lean ====
section
/-! DEFINITION. How the engine takes the host's next move (spec/30_encoding.md R70, R82, spec/00_scope.md R14): a whole packet, a reset
or a write of the buffer space. -/

namespace Sys2Proof.Machine

/-- The words the host sends before its next move of another kind. -/
def leadingWords : List HostMove → List Word
  | .word w :: rest => w :: leadingWords rest
  | .reset :: _ => []
  | .write _ _ :: _ => []
  | [] => []

/-- The host's moves from its first move that is not a word on. -/
def afterWords : List HostMove → List HostMove
  | .word _ :: rest => afterWords rest
  | .reset :: rest => .reset :: rest
  | .write a b :: rest => .write a b :: rest
  | [] => []

/-- How many moves the packet at the front takes: the words R70 gives for its header's `OPC`, for an illegal header too (R82). -/
def packetLength : List HostMove → Nat
  | .word w0 :: _ => packetWords w0
  | .reset :: _ => 0
  | .write _ _ :: _ => 0
  | [] => 0

/-- The state once the packet at the front has been taken from the channel. -/
def takePacket (s : State) : State := s.setHost (s.host.drop (packetLength s.host))

/-- A move that is not a word, or no move: reset (R220); a write of the buffer space; idle, all state kept (60_exceptions.md R205). -/
def hostStep (s : State) : Host.Outcome State Fault Refusal :=
  match s.host with
  | .reset :: rest => .next (takeReset (s.setHost rest))
  | .write a b :: rest => .next (hostWrite (s.setHost rest) a b)
  | .word _ :: _ => .next s
  | [] => .next s

/-- The words at the front are not a whole packet. With nothing after them the engine waits for the rest: it takes whole packets only
(R70; log 7). A reset asserted now takes effect, "at any time" (R220), and the words are lost (log 8). A write of the buffer space now
is a move the host does not have (R14, R61, 93 U10; log 9). -/
def partialPacketStep (s : State) : Host.Outcome State Fault Refusal :=
  match afterWords s.host with
  | .reset :: rest => .next (takeReset (s.setHost rest))
  | .write _ _ :: _ => .refused .hostProtocol
  | .word _ :: _ => .next s
  | [] => .next s

/-- Words at the front: the command of a whole packet is executed; an illegal one gets the response `IllegalCommand`, in any state,
and changes nothing (R82, R193). -/
def packetStep (s : State) : Host.Outcome State Fault Refusal :=
  match decode (leadingWords s.host) with
  | .instr i => exec i (takePacket s)
  | .illegal _ => raise (takePacket s) .illegalCommand
  | .incomplete => partialPacketStep s

/-- The host's next move. -/
def nextMove (s : State) : Host.Outcome State Fault Refusal :=
  match s.host with
  | .word _ :: _ => packetStep s
  | .reset :: _ => hostStep s
  | .write _ _ :: _ => hostStep s
  | [] => hostStep s

/-- The host's moves with a packet put in front of them. -/
def issueWords (ws : List Word) (h : List HostMove) : List HostMove := ws.map HostMove.word ++ h

end Sys2Proof.Machine
end

