-- ==== Sys2Proof/Machine/Step.lean ====
section
/-! DEFINITION. One step: the next move of the host, a whole packet being one move (spec/70_reset_and_hazards.md R230: a command is one
atomic step). -/

namespace Sys2Proof.Machine

/-- One step of the machine. -/
def step (s : State) : Host.Outcome State Fault Refusal := nextMove s

/-- The state with the packet whose bits are `w` issued by the host next (log 10). -/
def State.withFetchWord (s : State) (nbits w : Nat) : State :=
  s.setHost (issueWords (Sys2Proof.tableWords nbits w) s.host)

end Sys2Proof.Machine
end

