-- ==== Sys2Proof/Machine/Assembler.lean ====
section
/-! DEFINITION. The assembler forms of spec/30_encoding.md R86 and the three pseudo-instructions of R87 with the way a host runs them
(spec/44_variant_catalog.md R170 to R173). -/

namespace Sys2Proof.Machine

/-- The operand `buf` or `txt` of R86: `NULL` (`P` = 0), or (`BASE`, `BUFLEN`), or (`BASE`, `NCHARS`). -/
inductive BufArg where
  | null
  | given (base size : Word)
  deriving DecidableEq, Repr

/-- A line of the assembler syntax (R86) or a pseudo-instruction (R87). In a text form `enc` is false for `SB` and true for `DB`. -/
inductive Asm where
  | construct (poly init : Half) (refin refout : Bool) (xorout : Half)
  | presetArc
  | presetIeee8023
  | presetCcitt
  | presetKermit
  | presetX25
  | presetXmodem
  | presetZmodem
  | append (buf : BufArg)
  | appendRange (buf : BufArg) (off len : Word)
  | appendt (txt : BufArg) (enc : Bool)
  | digest
  | rev8 (v : Byte)
  | rev16 (v : Half)
  | compute (buf : BufArg)
  | computer (buf : BufArg) (off len : Word)
  | computet (txt : BufArg) (enc : Bool)
  deriving DecidableEq, Repr

/-- `APPEND buf` (R86): the whole buffer, `OFFSET` and `LENGTH` written 0. -/
def asmAppend : BufArg → Instr
  | .null => .append false false 0#32 0#32 0#32 0#32
  | .given base size => .append true false base size 0#32 0#32

/-- `APPEND buf, off, len` (R86). -/
def asmAppendRange : BufArg → Word → Word → Instr
  | .null, _, _ => .append false false 0#32 0#32 0#32 0#32
  | .given base size, off, len => .append true true base size off len

/-- `APPENDT txt, SB` and `APPENDT txt, DB` (R86). -/
def asmAppendt : BufArg → Bool → Instr
  | .null, enc => .appendt false enc 0#32 0#32
  | .given base size, enc => .appendt true enc base size

/-- The commands of a line: one, or the three of a pseudo-instruction's expansion (R86, R87, R170). -/
def assemble : Asm → List Instr
  | .construct poly init refin refout xorout => [.construct refin refout poly init xorout]
  | .presetArc => [.presetArc]
  | .presetIeee8023 => [.presetIeee8023]
  | .presetCcitt => [.presetCcitt]
  | .presetKermit => [.presetKermit]
  | .presetX25 => [.presetX25]
  | .presetXmodem => [.presetXmodem]
  | .presetZmodem => [.presetZmodem]
  | .append buf => [asmAppend buf]
  | .appendRange buf off len => [asmAppendRange buf off len]
  | .appendt txt enc => [asmAppendt txt enc]
  | .digest => [.digest]
  | .rev8 v => [.rev8 v]
  | .rev16 v => [.rev16 v]
  | .compute buf => [.presetIeee8023, asmAppend buf, .digest]
  | .computer buf off len => [.presetIeee8023, asmAppendRange buf off len, .digest]
  | .computet txt enc => [.presetIeee8023, asmAppendt txt enc, .digest]

/-- The response of a state has `STATUS` = `OK`. -/
def State.lastOk (s : State) : Bool :=
  match s.rsp with
  | some r => r.status == .ok
  | none => false

/-- The host issues commands in order to one engine and stops after the first whose response is not `OK` (R170 items 1 and 3). The
final state holds the last response: the result, or the error (R170 items 2 and 3). -/
def runCommands : List Instr → State → Host.Outcome State Fault Refusal
  | [], s => .next s
  | i :: is, s =>
    match exec i s with
    | .next t => if t.lastOk then runCommands is t else .next t
    | .fault f => .fault f
    | .refused r => .refused r

/-- A line issued to one engine (R86, R87, log 16). -/
def runAsm (a : Asm) (s : State) : Host.Outcome State Fault Refusal := runCommands (assemble a) s

end Sys2Proof.Machine
end

