-- ==== Sys2Proof/Machine/Flags.lean ====
section
/-! DEFINITION. This hardware has no flags register (spec/10_state.md R22): the outcome of a command is the `STATUS` field of its
response. Here are the codes of `STATUS` (spec/60_exceptions.md R190) and the response word (spec/30_encoding.md R85). -/

namespace Sys2Proof.Machine

/-- The code of a `STATUS` (R190). -/
def statusCode : Status → BitVec 2
  | .ok => 0#2
  | .invalidInput => 1#2
  | .rangeError => 2#2
  | .illegalCommand => 3#2

/-- The response word `rsp` (R85): `rsp[31:18]` = 0, `rsp[17:16]` = `STATUS`, `rsp[15:0]` = `DATA`. -/
def responseWord (r : Response) : Word := 0#14 ++ statusCode r.status ++ r.data

end Sys2Proof.Machine
end

