-- ==== Sys2Proof/Safety.lean ====
section
/-! DEFINITION. The terms in which claims are stated: the invariant of the spec (spec/20_memory.md R64 and the canonical form of the
buffer space), a host that keeps the framing of its packets (93 U10), which commands construct, and what a buffer holds. -/

namespace Sys2Proof.Machine

/-- `TABLE = TableBuild(CFG.POLY)` whenever `VALID` = 1 (R64). -/
def tableCoherent (s : State) : Bool :=
  match s.engine with
  | none => true
  | some e => e.table == tableBuild e.cfg.poly

/-- The invariant every step keeps: the buffer space is in its canonical form and the table matches its polynomial (R64). -/
abbrev State.Inv (s : State) : Prop := Memory.wf s.mem = true ∧ tableCoherent s = true

/-- The host's moves keep the framing of packets, `due` words of a packet still to come: no write of the buffer space between the
words of one packet (R14, R61, 93 U10). A reset abandons a packet (R220). -/
def framedFrom : Nat → List HostMove → Bool
  | _, [] => true
  | _, .reset :: rest => framedFrom 0 rest
  | 0, .write _ _ :: rest => framedFrom 0 rest
  | _ + 1, .write _ _ :: _ => false
  | 0, .word w0 :: rest => framedFrom (packetWords w0 - 1) rest
  | due + 1, .word _ :: rest => framedFrom due rest

/-- A host that keeps the framing of its packets. -/
def State.framed (s : State) : Bool := framedFrom 0 s.host

/-- The commands that begin an engine instance (spec/10_state.md R31). -/
def constructs : Instr → Bool
  | .construct _ _ _ _ _ => true
  | .presetArc => true
  | .presetIeee8023 => true
  | .presetCcitt => true
  | .presetKermit => true
  | .presetX25 => true
  | .presetXmodem => true
  | .presetZmodem => true
  | .append _ _ _ _ _ _ => false
  | .appendt _ _ _ _ => false
  | .digest => false
  | .rev8 _ => false
  | .rev16 _ => false

/-- The commands that fold into `REG` (R36). -/
def appends : Instr → Bool
  | .append _ _ _ _ _ _ => true
  | .appendt _ _ _ _ => true
  | .construct _ _ _ _ _ => false
  | .presetArc => false
  | .presetIeee8023 => false
  | .presetCcitt => false
  | .presetKermit => false
  | .presetX25 => false
  | .presetXmodem => false
  | .presetZmodem => false
  | .digest => false
  | .rev8 _ => false
  | .rev16 _ => false

/-- The packet at the front of the host's moves. -/
def State.pending (s : State) : Decoded := decode (leadingWords s.host)

/-- The bytes of a buffer, `n` of them from index `off` (spec/20_memory.md R52): `B[j] = MEM((BASE + j) mod 2^AW)`. -/
def bytesAt (m : List Host.Cell) (base : Addr) (off n : Nat) : List Byte :=
  (List.range n).map (fun i => Memory.read m (bufferAddr base (off + i)))

/-- Character `k` of a text (R53): `{MEM(BASE + 2k), MEM(BASE + 2k + 1)}`. -/
def charAt (m : List Host.Cell) (base : Addr) (k : Nat) : Half :=
  Memory.read m (bufferAddr base (2 * k)) ++ Memory.read m (bufferAddr base (2 * k + 1))

/-- The nine ASCII bytes "123456789" (spec/44_variant_catalog.md R169). -/
def checkInput : List Byte := [0x31#8, 0x32#8, 0x33#8, 0x34#8, 0x35#8, 0x36#8, 0x37#8, 0x38#8, 0x39#8]

/-- A header word that is an illegal encoding, in the words of spec/30_encoding.md R82: `OPC` is 0x0 or 0x8 to 0xF; or a reserved bit of
the format is 1 (R72 to R78); or `OPC` = 0x2 and `VARIANT` = 7. -/
def IllegalHeader (w0 : Word) : Prop :=
  (opcOf w0 = 0x0#4 ∨ 0x8#4 ≤ opcOf w0) ∨
  ((opcOf w0 = 0x1#4 ∨ opcOf w0 = 0x3#4 ∨ opcOf w0 = 0x4#4) ∧ w0.extractLsb' 2 26 ≠ 0#26) ∨
  (opcOf w0 = 0x2#4 ∧ w0.extractLsb' 3 25 ≠ 0#25) ∨
  (opcOf w0 = 0x5#4 ∧ w0.extractLsb' 0 28 ≠ 0#28) ∨
  (opcOf w0 = 0x6#4 ∧ w0.extractLsb' 8 20 ≠ 0#20) ∨
  (opcOf w0 = 0x7#4 ∧ w0.extractLsb' 16 12 ≠ 0#12) ∨
  (opcOf w0 = 0x2#4 ∧ w0.extractLsb' 0 3 = 7#3)

/-- A line of assembly is the packet `ws`, and the decoder reads it back (spec/30_encoding.md R88). -/
def encodesAs (a : Asm) (ws : List Word) : Prop :=
  ∃ i, assemble a = [i] ∧ encode i = ws ∧ decode ws = .instr i

/-- What spec/44_variant_catalog.md R160 and R162 to R168 say of one preset: its command, `w0`, its parameters, two entries of its
table, the digest of the empty input, and `REG` and the digest after the check input. -/
structure PresetRow where
  instr : Instr
  w0 : Word
  cfg : Cfg
  t01 : Half
  t80 : Half
  emptyDigest : Half
  regAfter : Half
  check : Half
  deriving DecidableEq, Repr

/-- The seven rows: parameters from R160, worked values from R162 to R168 and spec/95_test_vectors.md sections 1 and 4.1. -/
def presetRows : List PresetRow :=
  [⟨.presetArc, 0x20000000#32, ⟨0x8005#16, 0x0000#16, true, true, 0x0000#16⟩, 0xC0C1#16, 0xA001#16, 0x0000#16, 0xBB3D#16, 0xBB3D#16⟩,
   ⟨.presetIeee8023, 0x20000001#32, ⟨0x8005#16, 0x0000#16, true, true, 0x0000#16⟩, 0xC0C1#16, 0xA001#16, 0x0000#16, 0xBB3D#16,
     0xBB3D#16⟩,
   ⟨.presetCcitt, 0x20000002#32, ⟨0x1021#16, 0xFFFF#16, false, false, 0x0000#16⟩, 0x1189#16, 0x8408#16, 0xFFFF#16, 0x8D94#16,
     0x29B1#16⟩,
   ⟨.presetKermit, 0x20000003#32, ⟨0x1021#16, 0x0000#16, true, true, 0x0000#16⟩, 0x1189#16, 0x8408#16, 0x0000#16, 0x2189#16, 0x2189#16⟩,
   ⟨.presetX25, 0x20000004#32, ⟨0x1021#16, 0xFFFF#16, true, true, 0xFFFF#16⟩, 0x1189#16, 0x8408#16, 0x0000#16, 0x6F91#16, 0x906E#16⟩,
   ⟨.presetXmodem, 0x20000005#32, ⟨0x8408#16, 0x0000#16, true, true, 0x0000#16⟩, 0x17CE#16, 0x1021#16, 0x0000#16, 0x0C73#16, 0x0C73#16⟩,
   ⟨.presetZmodem, 0x20000006#32, ⟨0x1021#16, 0x0000#16, false, false, 0x0000#16⟩, 0x1189#16, 0x8408#16, 0x0000#16, 0xC38C#16,
     0x31C3#16⟩]

/-- What lies between two `DIGEST`s of R152: no `APPEND`, `APPENDT` or construction that ended `OK`. `t` is reached from `s` by commands
that are none of these or that raised, by illegal packets and by the host's writes of the buffer space. -/
inductive QuietRun : State → State → Prop where
  | done (s : State) : QuietRun s s
  | command (s t u : State) (i : Instr) (h : exec i s = .next t)
      (quiet : (constructs i = false ∧ appends i = false) ∨ t.lastOk = false) (rest : QuietRun t u) : QuietRun s u
  | illegal (s t u : State) (why : IllegalWhy) (hp : s.pending = .illegal why) (h : step s = .next t) (rest : QuietRun t u) : QuietRun s u
  | write (s t u : State) (a : Addr) (b : Byte) (moves : List HostMove) (hh : s.host = .write a b :: moves) (h : step s = .next t)
      (rest : QuietRun t u) : QuietRun s u

end Sys2Proof.Machine
end

