-- ==== Sys2Proof/Certificates/Slice0/Obligations.lean ====
section
/-! DEFINITION. The statements for the provers, each from the spec's numbered rules. A statement about a command's effect concludes that
exec answers a next state, for every state and operands that meet hypotheses on the state and the operands alone. -/

open Sys2Proof Sys2Proof.Machine

/-! ### Encoding (spec/30_encoding.md) -/

/-- R88: the worked packets, each assembled, encoded and decoded; the four illegal words are rejected. -/
def Obligations.WorkedEncodingsDecode : Prop :=
  encodesAs (.construct 0x1021#16 0xFFFF#16 false false 0x0000#16) [0x10000000#32, 0xFFFF1021#32, 0x00000000#32] ∧
  encodesAs (.construct 0x8005#16 0x0000#16 true true 0x0000#16) [0x10000003#32, 0x00008005#32, 0x00000000#32] ∧
  encodesAs (.construct 0x1021#16 0xFFFF#16 true true 0xFFFF#16) [0x10000003#32, 0xFFFF1021#32, 0x0000FFFF#32] ∧
  encodesAs .presetArc [0x20000000#32] ∧
  encodesAs .presetZmodem [0x20000006#32] ∧
  encodesAs (.append (.given 0x00001000#32 9#32)) [0x30000001#32, 0x00001000#32, 0x00000009#32, 0x00000000#32, 0x00000000#32] ∧
  encodesAs (.appendRange (.given 0x00002000#32 13#32) 2#32 9#32)
    [0x30000003#32, 0x00002000#32, 0x0000000D#32, 0x00000002#32, 0x00000009#32] ∧
  encodesAs (.append .null) [0x30000000#32, 0x00000000#32, 0x00000000#32, 0x00000000#32, 0x00000000#32] ∧
  encodesAs (.appendt (.given 0x00003000#32 2#32) true) [0x40000003#32, 0x00003000#32, 0x00000002#32] ∧
  encodesAs (.appendt (.given 0x00003000#32 2#32) false) [0x40000001#32, 0x00003000#32, 0x00000002#32] ∧
  encodesAs .digest [0x50000000#32] ∧
  encodesAs (.rev8 0x01#8) [0x60000001#32] ∧
  encodesAs (.rev16 0x8005#16) [0x70008005#32] ∧
  decode [0x00000000#32] = .illegal .reservedOpcode ∧
  decode [0x20000007#32] = .illegal .reservedVariant ∧
  decode [0x50000001#32] = .illegal .reservedBit ∧
  decode [0x60000100#32] = .illegal .reservedBit

/-- Decode and encode agree for every well-formed command, every operand at every value its field admits, whatever words follow
(R72 to R78, R84). -/
def Obligations.DecodeOfEncodeIsTheCommand : Prop :=
  ∀ (i : Instr) (rest : List Word), WellFormed i = true → decode (encode i ++ rest) = .instr i

/-- The decoder drops ignored fields: what it reads is well formed, so its encoding decodes to it again (R83, 93 U13). -/
def Obligations.DecodedCommandIsWellFormed : Prop :=
  ∀ (ws : List Word) (i : Instr), decode ws = .instr i → WellFormed i = true ∧ decode (encode i) = .instr i

/-- R83: an ignored field may hold any value and changes neither the next state nor the response; only the header word is checked for
reserved bits, so what the operand words hold never makes a packet illegal. -/
def Obligations.IgnoredFieldsChangeNothing : Prop :=
  (∀ (s : State) (refin refout : Bool) (w1 : Word) (x ign ign' : Half) (rest : List HostMove),
    step (s.setHost (issueWords [flagsHeader 0x1#4 refout refin, w1, ign ++ x] rest)) =
      step (s.setHost (issueWords [flagsHeader 0x1#4 refout refin, w1, ign' ++ x] rest))) ∧
  (∀ (s : State) (w1 w2 w3 w4 v3 v4 : Word) (rest : List HostMove),
    step (s.setHost (issueWords [flagsHeader 0x3#4 false true, w1, w2, w3, w4] rest)) =
      step (s.setHost (issueWords [flagsHeader 0x3#4 false true, w1, w2, v3, v4] rest))) ∧
  (∀ (s : State) (r r' : Bool) (w1 w2 w3 w4 v1 v2 v3 v4 : Word) (rest : List HostMove),
    step (s.setHost (issueWords [flagsHeader 0x3#4 r false, w1, w2, w3, w4] rest)) =
      step (s.setHost (issueWords [flagsHeader 0x3#4 r' false, v1, v2, v3, v4] rest))) ∧
  (∀ (s : State) (enc : Bool) (w1 w2 v1 v2 : Word) (rest : List HostMove),
    step (s.setHost (issueWords [flagsHeader 0x4#4 enc false, w1, w2] rest)) =
      step (s.setHost (issueWords [flagsHeader 0x4#4 enc false, v1, v2] rest))) ∧
  (∀ (w0 : Word) (ops ops' : List Word) (why : IllegalWhy), ops.length = ops'.length →
    decode (w0 :: ops) = .illegal why → decode (w0 :: ops') = .illegal why)

/-- R82: a whole packet is an illegal command exactly when its header is an illegal encoding; in every state the engine then takes the
words R70 gives for the `OPC`, changes no state and responds (`IllegalCommand`, 0). -/
def Obligations.IllegalEncodingsRespondIllegalCommand : Prop :=
  (∀ (w0 : Word) (ops : List Word), packetWords w0 ≤ ops.length + 1 →
    ((∃ why, decode (w0 :: ops) = .illegal why) ↔ IllegalHeader w0)) ∧
  (∀ (s : State) (w0 : Word) (ops : List Word) (rest : List HostMove), packetWords w0 = ops.length + 1 → IllegalHeader w0 →
    step (s.setHost (issueWords (w0 :: ops) rest)) = .next ((s.setHost rest).setRsp (some ⟨.illegalCommand, 0#16⟩)))

/-- R79: a header word selects the command of the one row whose masked bits match; no two rows match the same word; a word that matches
no row is an illegal command. -/
def Obligations.HeaderSelectsOneRow : Prop :=
  ∀ (w0 : Word) (ops : List Word), packetWords w0 ≤ ops.length + 1 →
    (∀ i, decode (w0 :: ops) = .instr i →
      ∃ row ∈ opcodeMap, row.selects w0 = true ∧ row.mnemonic = mnemonicOf i ∧ row.words = packetWords w0) ∧
    (∀ row ∈ opcodeMap, row.selects w0 = true → ∃ i, decode (w0 :: ops) = .instr i ∧ mnemonicOf i = row.mnemonic) ∧
    ((∀ row ∈ opcodeMap, row.selects w0 = false) → ∃ why, decode (w0 :: ops) = .illegal why) ∧
    (∀ row ∈ opcodeMap, ∀ row' ∈ opcodeMap, row.selects w0 = true → row'.selects w0 = true → row = row')

/-- R70: the number of words of a packet by `OPC`, and the engine takes exactly those words and returns one response, whatever the
packet is and in every state. -/
def Obligations.PacketTakesItsWordsAndAnswersOnce : Prop :=
  (∀ w0 : Word, packetWords w0 = [1, 3, 1, 5, 3, 1, 1, 1, 1, 1, 1, 1, 1, 1, 1, 1].getD (opcOf w0).toNat 0) ∧
  (∀ (s : State) (w0 : Word) (ops : List Word) (rest : List HostMove), packetWords w0 = ops.length + 1 →
    ∃ t r, step (s.setHost (issueWords (w0 :: ops) rest)) = .next t ∧ t.host = rest ∧ t.rsp = some r)

/-- Each operand that is not ignored is the field of its format, copied bit for bit (R72, R74, R75, R77, R78, R81), for the forms with
`P` = 1. The model's choice in the third clause (log 12, DEDUCED from R83 and 93 U13): for `APPEND` with `R` = 0 the ignored `OFFSET` and
`LENGTH` decode to 0 whatever the packet holds. The forms with `P` = 0 are in `Obligations.IgnoredFieldsChangeNothing`. -/
def Obligations.OperandsAreTheFormatsFields : Prop :=
  (∀ (refin refout : Bool) (poly init xorout ign : Half) (rest : List Word),
    decode ((0x1#4 ++ 0#26 ++ BitVec.ofBool refout ++ BitVec.ofBool refin) :: (init ++ poly) :: (ign ++ xorout) :: rest) =
      .instr (.construct refin refout poly init xorout)) ∧
  (∀ (base buflen offset length : Word) (rest : List Word),
    decode ((0x3#4 ++ 0#26 ++ 1#1 ++ 1#1) :: base :: buflen :: offset :: length :: rest) =
      .instr (.append true true base buflen offset length)) ∧
  (∀ (base buflen offset length : Word) (rest : List Word),
    decode ((0x3#4 ++ 0#26 ++ 0#1 ++ 1#1) :: base :: buflen :: offset :: length :: rest) =
      .instr (.append true false base buflen 0#32 0#32)) ∧
  (∀ (enc : Bool) (base nchars : Word) (rest : List Word),
    decode ((0x4#4 ++ 0#26 ++ BitVec.ofBool enc ++ 1#1) :: base :: nchars :: rest) = .instr (.appendt true enc base nchars)) ∧
  (∀ (v : Byte) (rest : List Word), decode ((0x6#4 ++ 0#20 ++ v) :: rest) = .instr (.rev8 v)) ∧
  (∀ (v : Half) (rest : List Word), decode ((0x7#4 ++ 0#12 ++ v) :: rest) = .instr (.rev16 v))

/-- A step runs the decoded command: the whole packet at the front is taken from the channel and its command executed; nothing else is
changed around it (R70, R84). -/
def Obligations.StepRunsTheDecodedCommand : Prop :=
  ∀ (s : State) (w0 : Word) (ops : List Word) (rest : List HostMove) (i : Instr),
    s.host = issueWords (w0 :: ops) rest → packetWords w0 = ops.length + 1 → decode (w0 :: ops) = .instr i →
    step s = exec i (s.setHost rest)

/-- A well-formed command issued by the host runs: the step on its encoding is its meaning (R70, R72 to R78). -/
def Obligations.IssuedCommandRuns : Prop :=
  ∀ (s : State) (i : Instr) (rest : List HostMove), WellFormed i = true → s.host = issueWords (encode i) rest →
    step s = exec i (s.setHost rest)

/-! ### Responses and errors (spec/30_encoding.md R85, spec/60_exceptions.md) -/

/-- R85: the layout of the response word, the codes, and what `DATA` holds: the digest for `DIGEST`, the reversed value for `REV8` and
`REV16`, and 0 in every other case and in every response that is not `OK`. -/
def Obligations.ResponseWordAndData : Prop :=
  (∀ r : Response, (responseWord r).extractLsb' 18 14 = 0#14 ∧ (responseWord r).extractLsb' 16 2 = statusCode r.status ∧
    (responseWord r).extractLsb' 0 16 = r.data) ∧
  statusCode .ok = 0#2 ∧ statusCode .invalidInput = 1#2 ∧ statusCode .rangeError = 2#2 ∧ statusCode .illegalCommand = 3#2 ∧
  (∀ (s t : State) (i : Instr), exec i s = .next t → ∃ r, t.rsp = some r ∧ (r.status ≠ .ok → r.data = 0#16) ∧
    (match i with
      | .digest => r.status = .ok → ∃ e, s.engine = some e ∧ r.data = digestOf e
      | .rev8 v => r.data = (rev8 v).setWidth 16
      | .rev16 v => r.data = rev16 v
      | _ => r.data = 0#16)) ∧
  (∀ (s t : State) (why : IllegalWhy), s.pending = .illegal why → step s = .next t → t.rsp = some ⟨.illegalCommand, 0#16⟩)

/-- R131: appending an absent buffer or text fails with `InvalidInput`, a sub-range out of bounds with `RangeError`; a command that
raises, with these or with `IllegalCommand`, changes no element of state: only the response is returned. -/
def Obligations.FailureLeavesStateUnchanged : Prop :=
  (∀ (s : State) (e : Engine) (r : Bool) (base buflen offset length : Word), s.engine = some e →
    exec (.append false r base buflen offset length) s = .next (s.setRsp (some ⟨.invalidInput, 0#16⟩))) ∧
  (∀ (s : State) (e : Engine) (enc : Bool) (base nchars : Word), s.engine = some e →
    exec (.appendt false enc base nchars) s = .next (s.setRsp (some ⟨.invalidInput, 0#16⟩))) ∧
  (∀ (s : State) (e : Engine) (base buflen offset length : Word), s.engine = some e →
    buflen.toNat < offset.toNat + length.toNat →
    exec (.append true true base buflen offset length) s = .next (s.setRsp (some ⟨.rangeError, 0#16⟩))) ∧
  (∀ (s t : State) (i : Instr), exec i s = .next t → t.lastOk = false → ∃ st, t = s.setRsp (some ⟨st, 0#16⟩)) ∧
  (∀ (s t : State) (why : IllegalWhy), s.pending = .illegal why → step s = .next t →
    t.engine = s.engine ∧ t.mem = s.mem)

/-- R196: one packet reports the first error that applies: an illegal header in any state; `VALID` = 0; `P` = 0; the range. -/
def Obligations.FirstErrorThatApplies : Prop :=
  (∀ (s t : State) (why : IllegalWhy), s.pending = .illegal why → step s = .next t →
    t.rsp = some ⟨.illegalCommand, 0#16⟩) ∧
  (∀ (s t : State) (p r : Bool) (base buflen offset length : Word),
    exec (.append p r base buflen offset length) s = .next t →
    ∃ q, t.rsp = some q ∧ q.status =
      (if s.valid = false then .illegalCommand
       else if p = false then .invalidInput
       else if r = true ∧ buflen.toNat < offset.toNat + length.toNat then .rangeError
       else .ok)) ∧
  (∀ (s t : State) (p enc : Bool) (base nchars : Word), exec (.appendt p enc base nchars) s = .next t →
    ∃ q, t.rsp = some q ∧ q.status =
      (if s.valid = false then .illegalCommand else if p = false then .invalidInput else .ok)) ∧
  (∀ (s t : State), exec .digest s = .next t →
    ∃ q, t.rsp = some q ∧ q.status = (if s.valid = false then .illegalCommand else .ok))

/-- R194: nothing else fails. Every command ends with a response; the constructions, `REV8` and `REV16` are always `OK`, `DIGEST` fails
with `IllegalCommand` only, and the only errors there are are the three. -/
def Obligations.NothingElseFails : Prop :=
  ∀ (i : Instr) (s : State), ∃ t r, exec i s = .next t ∧ t.rsp = some r ∧
    (constructs i = true → r.status = .ok) ∧
    (∀ v, i = .rev8 v → r.status = .ok) ∧ (∀ v, i = .rev16 v → r.status = .ok) ∧
    (i = .digest → r.status = .ok ∨ r.status = .illegalCommand) ∧
    (∀ p enc base nchars, i = .appendt p enc base nchars → r.status ≠ .rangeError)

/-- The response is an output, not state: no command and no packet depends on the response of an earlier one (R22, R39, R198). -/
def Obligations.NoCommandReadsTheLastResponse : Prop :=
  (∀ (i : Instr) (s : State) (x : Option Response), exec i (s.setRsp x) = exec i s) ∧
  (∀ (s : State) (w0 : Word) (ops : List Word) (rest : List HostMove) (x : Option Response),
    s.host = issueWords (w0 :: ops) rest → packetWords w0 = ops.length + 1 → step (s.setRsp x) = step s)

/-! ### Reset, the engine instance, invariants (spec/10_state.md, spec/70_reset_and_hazards.md) -/

/-- R42: after reset `VALID` = 0, `CFG`, `REG` and `TABLE` hold no value, `REV8ROM` holds its constant contents, and no response is
pending; and while `VALID` = 0 every command that would read `CFG`, `REG` or `TABLE` raises `IllegalCommand`, and the commands that
make `VALID` = 1 write all of them. -/
def Obligations.ResetLeavesNoInstance : Prop :=
  State.reset.valid = false ∧ State.reset.engine = none ∧ State.reset.rsp = none ∧
  (∀ (b : Byte) (k : Nat), k < 8 → (entry rev8Rom b).getLsbD k = b.getLsbD (7 - k)) ∧
  (∀ (s : State) (p q : Bool) (w1 w2 w3 w4 : Word), s.valid = false →
    exec (.append p q w1 w2 w3 w4) s = .next (s.setRsp (some ⟨.illegalCommand, 0#16⟩)) ∧
    exec (.appendt p q w1 w2) s = .next (s.setRsp (some ⟨.illegalCommand, 0#16⟩)) ∧
    exec .digest s = .next (s.setRsp (some ⟨.illegalCommand, 0#16⟩))) ∧
  (∀ (s t : State) (i : Instr), s.valid = false → exec i s = .next t → t.valid = true →
    ∃ c, t.engine = some { cfg := c, table := tableBuild c.poly, reg := c.init })

/-- Asserting reset puts the engine, from any state, in the reset state with no response pending (R220). The model's choice (log 1,
DESIGN CHOICE; R51 gives the buffer space to the host): it keeps its content. -/
def Obligations.ResetEvent : Prop :=
  ∀ (s : State) (rest : List HostMove), s.host = .reset :: rest →
    step s = .next { engine := none, mem := s.mem, rsp := none, host := rest }

/-- R30: every construction sets `VALID`; no command clears it; only a reset does, in a step that takes one from the host; and while it
is 0 `APPEND`, `APPENDT` and `DIGEST` raise `IllegalCommand`. The model's choice in the third clause (log 8, DEDUCED, unsafe): the reset may
stand between the words of a packet (`k` from 1 to 4), and those words are lost. -/
def Obligations.ValidIsSetByConstructionAndClearedByReset : Prop :=
  (∀ (i : Instr) (s t : State), exec i s = .next t → t.valid = (s.valid || constructs i)) ∧
  (∀ (s : State) (rest : List HostMove), s.host = .reset :: rest → ∃ t, step s = .next t ∧ t.valid = false) ∧
  (∀ s t : State, step s = .next t → s.valid = true → t.valid = false →
    ∃ k, k < 5 ∧ s.host[k]? = some .reset ∧ t.host = s.host.drop (k + 1)) ∧
  (∀ (s : State) (p q : Bool) (w1 w2 w3 w4 : Word), s.valid = false →
    exec (.append p q w1 w2 w3 w4) s = .next (s.setRsp (some ⟨.illegalCommand, 0#16⟩)) ∧
    exec (.appendt p q w1 w2) s = .next (s.setRsp (some ⟨.illegalCommand, 0#16⟩)) ∧
    exec .digest s = .next (s.setRsp (some ⟨.illegalCommand, 0#16⟩)))

/-- The invariant that every step keeps, from every state that has it: the buffer space is in its canonical form, and `TABLE` =
`TableBuild(CFG.POLY)` whenever `VALID` = 1 (R64). The canonical form is the model's choice (log 1, DESIGN CHOICE). -/
def Obligations.EveryStepKeepsTheInvariant : Prop :=
  ∀ s t : State, s.Inv → step s = .next t → t.Inv

/-- The invariant holds at reset, and the host's moves at reset keep the framing of packets. That there is no instance, so no table
that differs from its polynomial, is R42's and R64's; the model's choices (DESIGN CHOICE) are the canonical, here empty, buffer space (log 1)
and what `State.host` holds at reset (log 2). -/
def Obligations.InvariantHoldsAtReset : Prop := State.reset.Inv ∧ State.reset.framed = true

/-- A host that keeps the framing of its packets is never refused, and its moves to come keep it (R14, R61, R194, R230). The model's
choices: a packet not yet whole waits (log 7, DEDUCED); a reset between the words of a packet is taken and the words are lost (log 8, DEDUCED,
unsafe; 93 U10 lists it among the moves to refuse); what is refused outside the framing (log 9, DESIGN CHOICE). -/
def Obligations.FramedHostIsNeverRefused : Prop :=
  ∀ s : State, s.framed = true → ∃ t, step s = .next t ∧ t.framed = true

/-- R35: within one engine instance `TABLE` and `CFG` never change. -/
def Obligations.InstanceKeepsTableAndCfg : Prop :=
  ∀ (s t : State) (e e' : Engine), step s = .next t → s.engine = some e → t.engine = some e' →
    (∀ i, s.pending = .instr i → constructs i = false) → e'.table = e.table ∧ e'.cfg = e.cfg

/-- R36: within one engine instance `REG` changes only by `APPEND` and `APPENDT` that end `OK`; a command that raises leaves it, and
`DIGEST`, `REV8` and `REV16` never change it. -/
def Obligations.RegChangesOnlyByAppendsThatEndOk : Prop :=
  (∀ (s t : State) (e e' : Engine), step s = .next t → s.engine = some e → t.engine = some e' →
    (∀ i, s.pending = .instr i → constructs i = false) → e'.reg ≠ e.reg →
    ∃ i, s.pending = .instr i ∧ appends i = true ∧ t.lastOk = true) ∧
  (∀ (i : Instr) (s t : State), exec i s = .next t → t.lastOk = false → t.engine = s.engine) ∧
  (∀ (s t : State) (v : Byte) (w : Half), (exec .digest s = .next t ∨ exec (.rev8 v) s = .next t ∨ exec (.rev16 w) s = .next t) →
    t.engine = s.engine)

/-- The frame of every command (R38, R51): every byte of the buffer space reads as before and the host's moves are as before; `APPEND`
and `APPENDT` leave `VALID`, `CFG` and `TABLE`; `DIGEST`, `REV8`, `REV16` leave the whole instance; every command returns a response. -/
def Obligations.FrameOfEveryCommand : Prop :=
  ∀ (i : Instr) (s t : State), exec i s = .next t →
    (∀ a : Addr, Memory.read t.mem a = Memory.read s.mem a) ∧ t.mem = s.mem ∧ t.host = s.host ∧
    (constructs i = false → t.valid = s.valid ∧ t.engine.map Engine.cfg = s.engine.map Engine.cfg ∧
      t.engine.map Engine.table = s.engine.map Engine.table) ∧
    (constructs i = false → appends i = false → t.engine = s.engine) ∧
    t.rsp.isSome = true

/-- The engine has no way to write the buffer space: a step that is not the host's write leaves every byte of it (R50, R51).
For a step that takes a reset this is the model's choice (log 1, DESIGN CHOICE). -/
def Obligations.OnlyTheHostWritesTheBufferSpace : Prop :=
  ∀ s t : State, step s = .next t → (∀ a b rest, s.host ≠ .write a b :: rest) →
    t.mem = s.mem ∧ ∀ a : Addr, Memory.read t.mem a = Memory.read s.mem a

/-! ### The bit-reversal unit (spec/42_bit_reversal.md) -/

/-- R140: bit `k` of `REV8(b)` is bit `7 - k` of `b`; it is `REV8ROM[b]`; it is its own inverse. -/
def Obligations.Rev8ReversesEightBits : Prop :=
  (∀ (b : Byte) (k : Nat), k < 8 → (rev8 b).getLsbD k = b.getLsbD (7 - k)) ∧
  (∀ b : Byte, rev8 b = entry rev8Rom b) ∧ (∀ b : Byte, rev8 (rev8 b) = b)

/-- R142: bit `k` of `REV16(v)` is bit `15 - k` of `v`; its bytes are the two 8-bit reversals; the worked examples. -/
def Obligations.Rev16ReversesSixteenBits : Prop :=
  (∀ (v : Half) (k : Nat), k < 16 → (rev16 v).getLsbD k = v.getLsbD (15 - k)) ∧
  (∀ v : Half, rev16 v = rev8 (v.extractLsb' 0 8) ++ rev8 (v.extractLsb' 8 8)) ∧
  rev16 0x0001#16 = 0x8000#16 ∧ rev16 0x8005#16 = 0xA001#16 ∧ rev16 0x1021#16 = 0x8408#16 ∧ rev16 0x8408#16 = 0x1021#16 ∧
  rev16 0x1234#16 = 0x2C48#16 ∧ rev16 0xABCD#16 = 0xB3D5#16 ∧ rev16 0x00FF#16 = 0xFF00#16 ∧ rev16 0x0180#16 = 0x0180#16 ∧
  rev16 0x0000#16 = 0x0000#16 ∧ rev16 0xFFFF#16 = 0xFFFF#16

/-- R143: the round trip for all 16-bit values, and linearity over XOR. -/
def Obligations.Rev16RoundTripAndLinear : Prop :=
  (∀ v : Half, rev16 (rev16 v) = v) ∧ (∀ a b : Half, rev16 (a ^^^ b) = rev16 a ^^^ rev16 b)

/-- R144: `REV8` in every state, its encoding and its corner cases. -/
def Obligations.Rev8Command : Prop :=
  (∀ (s : State) (v : Byte), exec (.rev8 v) s = .next (s.setRsp (some ⟨.ok, (rev8 v).setWidth 16⟩))) ∧
  (∀ v : Byte, ((rev8 v).setWidth 16).extractLsb' 8 8 = 0x00#8) ∧
  (∀ (v : Byte) (s : State) (rest : List HostMove), s.host = issueWords [0x600000#24 ++ v] rest →
    step s = exec (.rev8 v) (s.setHost rest)) ∧
  (∀ w : Word, opcOf w = 0x6#4 → w.extractLsb' 8 20 ≠ 0#20 → decode [w] = .illegal .reservedBit) ∧
  (rev8 0x00#8).setWidth 16 = 0x0000#16 ∧ (rev8 0xFF#8).setWidth 16 = 0x00FF#16 ∧
  decode [0x60000031#32] = .instr (.rev8 0x31#8) ∧ (rev8 0x31#8).setWidth 16 = 0x008C#16

/-- R145: `REV16` in every state, its encoding; two in a row return the original value. -/
def Obligations.Rev16Command : Prop :=
  (∀ (s : State) (v : Half), exec (.rev16 v) s = .next (s.setRsp (some ⟨.ok, rev16 v⟩))) ∧
  (∀ (v : Half) (s : State) (rest : List HostMove), s.host = issueWords [0x7000#16 ++ v] rest →
    step s = exec (.rev16 v) (s.setHost rest)) ∧
  (∀ (s : State) (v : Half), ∃ t u r, exec (.rev16 v) s = .next t ∧ t.rsp = some ⟨.ok, r⟩ ∧ exec (.rev16 r) t = .next u ∧
    u.rsp = some ⟨.ok, v⟩) ∧
  (∀ w : Word, opcOf w = 0x7#4 → w.extractLsb' 16 12 ≠ 0#12 → decode [w] = .illegal .reservedBit) ∧
  decode [0x70008005#32] = .instr (.rev16 0x8005#16) ∧ rev16 0x8005#16 = 0xA001#16 ∧ rev16 0xA001#16 = 0x8005#16

/-! ### The table builder and construction (spec/40_table_builder_construct.md) -/

/-- R102: what follows of every table: `T[0]` = 0, `T[0x80]` = rp, linearity over XOR, the eight generating entries; and the worked
examples. -/
def Obligations.TableProperties : Prop :=
  (∀ p : Half, entry (tableBuild p) 0x00#8 = 0x0000#16 ∧ entry (tableBuild p) 0x80#8 = rev16 p ∧
    (∀ i j : Byte, entry (tableBuild p) (i ^^^ j) = entry (tableBuild p) i ^^^ entry (tableBuild p) j) ∧
    (∀ k : Nat, k < 8 → entry (tableBuild p) (BitVec.ofNat 8 (2 ^ k)) = tableSteps (rev16 p) (7 - k) (rev16 p))) ∧
  rev16 0x8005#16 = 0xA001#16 ∧ entry (tableBuild 0x8005#16) 0x01#8 = 0xC0C1#16 ∧
  entry (tableBuild 0x8005#16) 0x02#8 = 0xC181#16 ∧ entry (tableBuild 0x8005#16) 0x80#8 = 0xA001#16 ∧
  entry (tableBuild 0x8005#16) 0xFF#8 = 0x4040#16 ∧
  rev16 0x1021#16 = 0x8408#16 ∧ entry (tableBuild 0x1021#16) 0x01#8 = 0x1189#16 ∧
  entry (tableBuild 0x1021#16) 0x02#8 = 0x2312#16 ∧ entry (tableBuild 0x1021#16) 0x80#8 = 0x8408#16 ∧
  entry (tableBuild 0x1021#16) 0xFF#8 = 0x0F78#16 ∧
  rev16 0x8408#16 = 0x1021#16 ∧ entry (tableBuild 0x8408#16) 0x01#8 = 0x17CE#16 ∧
  entry (tableBuild 0x8408#16) 0x02#8 = 0x0FDF#16 ∧ entry (tableBuild 0x8408#16) 0x80#8 = 0x1021#16 ∧
  entry (tableBuild 0x8408#16) 0xFF#8 = 0x1284#16

/-- R103: the two worked entries, iteration by iteration. -/
def Obligations.WorkedTableEntries : Prop :=
  rev16 0x8005#16 = 0xA001#16 ∧
  (List.range 8).map (fun k => tableSteps 0xA001#16 (k + 1) 0x0001#16) =
    [0xA001#16, 0xF001#16, 0xD801#16, 0xCC01#16, 0xC601#16, 0xC301#16, 0xC181#16, 0xC0C1#16] ∧
  (List.range 8).map (fun k => (tableSteps 0xA001#16 k 0x0001#16).getLsbD 0) = [true, true, true, true, true, true, true, true] ∧
  entry (tableBuild 0x8005#16) 0x01#8 = 0xC0C1#16 ∧
  rev16 0x1021#16 = 0x8408#16 ∧
  (List.range 8).map (fun k => tableSteps 0x8408#16 (k + 1) 0x0031#16) =
    [0x8410#16, 0x4208#16, 0x2104#16, 0x1082#16, 0x0841#16, 0x8028#16, 0x4014#16, 0x200A#16] ∧
  (List.range 8).map (fun k => (tableSteps 0x8408#16 k 0x0031#16).getLsbD 0) =
    [true, false, false, false, false, true, false, false] ∧
  entry (tableBuild 0x1021#16) 0x31#8 = 0x200A#16

/-- R104: `Construct` writes `CFG`, `TABLE`, `REG` (with `INIT` as given, not reversed) and `VALID` together, in every state and for
every operand, and never fails; nothing of a previous instance survives. The derived booleans follow. -/
def Obligations.ConstructWritesAFreshInstance : Prop :=
  ∀ (s : State) (refin refout : Bool) (poly init xorout : Half),
    exec (.construct refin refout poly init xorout) s = .next
      { engine := some { cfg := { poly := poly, init := init, refin := refin, refout := refout, xorout := xorout },
                         table := tableBuild poly, reg := init },
        mem := s.mem, rsp := some ⟨.ok, 0x0000#16⟩, host := s.host } ∧
    invIn { poly := poly, init := init, refin := refin, refout := refout, xorout := xorout } = !refin ∧
    invOut { poly := poly, init := init, refin := refin, refout := refout, xorout := xorout } = !refout

/-- R106, with the parameters of R160: each preset and `CONSTRUCT` with its five values leave the same state and response, in every
state. -/
def Obligations.PresetEqualsExplicitConstruct : Prop :=
  ∀ s : State, ∀ row ∈ presetRows,
    exec row.instr s = exec (.construct row.cfg.refin row.cfg.refout row.cfg.poly row.cfg.init row.cfg.xorout) s ∧
    exec row.instr s = .next ((s.setEngine (some { cfg := row.cfg, table := tableBuild row.cfg.poly, reg := row.cfg.init })).setRsp
      (some ⟨.ok, 0x0000#16⟩))

/-- R162 to R168: each preset's word, the state after it (`REG`, `TABLE`, `INV_IN`, `INV_OUT`), the digest of the empty input, and `REG`
and the digest after the check input, from every state whose buffer holds it; `PRESET.IEEE8023` leaves the state `PRESET.ARC` leaves. -/
def Obligations.PresetStatesAndWorkedExamples : Prop :=
  (∀ s : State, exec .presetIeee8023 s = exec .presetArc s) ∧
  ∀ (s : State) (base : Addr), bytesAt s.mem base 0 9 = checkInput → ∀ row ∈ presetRows,
    decode [row.w0] = .instr row.instr ∧
    entry (tableBuild row.cfg.poly) 0x01#8 = row.t01 ∧ entry (tableBuild row.cfg.poly) 0x80#8 = row.t80 ∧
    invIn row.cfg = !row.cfg.refin ∧ invOut row.cfg = !row.cfg.refout ∧
    ∃ t u, exec row.instr s = .next t ∧
      t.engine = some { cfg := row.cfg, table := tableBuild row.cfg.poly, reg := row.cfg.init } ∧
      exec .digest t = .next (t.setRsp (some ⟨.ok, row.emptyDigest⟩)) ∧
      exec (.append true false base 9#32 0#32 0#32) t = .next u ∧
      u.engine = some { cfg := row.cfg, table := tableBuild row.cfg.poly, reg := row.regAfter } ∧
      exec .digest u = .next (u.setRsp (some ⟨.ok, row.check⟩))

/-- R169: for all seven presets the digest of "123456789" is the published check value. -/
def Obligations.PresetCheckValues : Prop :=
  ∀ (s : State) (base : Addr), bytesAt s.mem base 0 9 = checkInput →
    ∀ v ∈ [(Instr.presetArc, 0xBB3D#16), (.presetIeee8023, 0xBB3D#16), (.presetCcitt, 0x29B1#16), (.presetKermit, 0x2189#16),
      (.presetX25, 0x906E#16), (.presetXmodem, 0x0C73#16), (.presetZmodem, 0x31C3#16)],
    ∃ t u w, exec v.1 s = .next t ∧ exec (.append true false base 9#32 0#32 0#32) t = .next u ∧ exec .digest u = .next w ∧
      w.rsp = some ⟨.ok, v.2⟩

/-! ### Append (spec/41_append.md) -/

/-- R121: the table-driven `Fold` equals 8 steps of bit-serial division, for every polynomial, register value and byte. -/
def Obligations.FoldEqualsBitSerialDivision : Prop :=
  ∀ (e : Engine) (r : Half) (b : Byte), e.table = tableBuild e.cfg.poly →
    fold e r b = tableSteps (rev16 e.cfg.poly) 8 (r ^^^ (if e.cfg.refin = true then b else rev8 b).setWidth 16)

/-- With `POLY` = 0 every entry is 0, every fold gives `REG >> 8`, and after two bytes the register is 0 (R101, R105). -/
def Obligations.ZeroPolynomialShiftsOut : Prop :=
  (∀ i : Byte, entry (tableBuild 0x0000#16) i = 0x0000#16) ∧
  (∀ (e : Engine) (r : Half) (b c : Byte), e.table = tableBuild 0x0000#16 →
    fold e r b = r >>> 8 ∧ fold e (fold e r b) c = 0x0000#16)

/-- `APPEND` of a supplied buffer with its sub-range in bounds, in every constructed state: the bytes
`MEM((BASE + off + i) mod 2^32)`, `i` = 0 .. `len` - 1, are folded in ascending order into `REG`, and (`OK`, 0) is returned; nothing
else changes (R54, R122, R124). -/
def Obligations.AppendFoldsTheSubrange : Prop :=
  ∀ (s : State) (e : Engine) (r : Bool) (base buflen offset length : Word) (off len : Nat), s.engine = some e →
    (off, len) = (if r = true then (offset.toNat, length.toNat) else (0, buflen.toNat)) → off + len ≤ buflen.toNat →
    exec (.append true r base buflen offset length) s = .next ((s.setEngine (some (e.setReg
      ((List.range len).foldl (fun q i => fold e q (Memory.read s.mem (base + BitVec.ofNat 32 (off + i)))) e.reg)))).setRsp
      (some ⟨.ok, 0x0000#16⟩))

/-- R123: the range check is made in the natural numbers. In bounds the command ends `OK`, otherwise it raises `RangeError`; with
`R` = 0 it always passes; an empty range at the end is in bounds, an offset beyond the end never is, and 0xFFFFFFFF + 1 is out of bounds
for every length. -/
def Obligations.RangeCheckInTheNaturals : Prop :=
  (∀ (s : State) (e : Engine) (base buflen offset length : Word), s.engine = some e →
    ∃ t, exec (.append true true base buflen offset length) s = .next t ∧
      (offset.toNat + length.toNat ≤ buflen.toNat → t.rsp = some ⟨.ok, 0x0000#16⟩) ∧
      (buflen.toNat < offset.toNat + length.toNat → t = s.setRsp (some ⟨.rangeError, 0x0000#16⟩))) ∧
  (∀ (s : State) (e : Engine) (base buflen offset length : Word), s.engine = some e →
    ∃ t, exec (.append true false base buflen offset length) s = .next t ∧ t.rsp = some ⟨.ok, 0x0000#16⟩) ∧
  (∀ (s : State) (e : Engine) (base buflen : Word), s.engine = some e →
    exec (.append true true base buflen 0xFFFFFFFF#32 1#32) s = .next (s.setRsp (some ⟨.rangeError, 0x0000#16⟩)) ∧
    exec (.append true true base buflen buflen 0#32) s = .next (s.setRsp (some ⟨.ok, 0x0000#16⟩)) ∧
    ∀ offset length : Word, buflen.toNat < offset.toNat →
      exec (.append true true base buflen offset length) s = .next (s.setRsp (some ⟨.rangeError, 0x0000#16⟩)))

/-- `APPENDT` of a supplied text in every constructed state: the characters `k` = 0 .. `NCHARS` - 1 are folded in order into `REG`, in
two-byte mode the byte at `BASE + 2k` and then the one at `BASE + 2k + 1`, in single-byte mode `NARROW` of the character, and (`OK`, 0) is
returned; nothing else changes (R53, R54, R125). It holds for every value of the open parameter `NARROW_HI`. -/
def Obligations.AppendtFoldsTheCharacters : Prop :=
  ∀ (s : State) (e : Engine) (enc : Bool) (base nchars : Word), s.engine = some e →
    exec (.appendt true enc base nchars) s = .next ((s.setEngine (some (e.setReg
      ((List.range nchars.toNat).foldl (fun q k =>
        if enc = true then
          fold e (fold e q (Memory.read s.mem (base + BitVec.ofNat 32 (2 * k)))) (Memory.read s.mem (base + BitVec.ofNat 32 (2 * k + 1)))
        else fold e q (narrow (Memory.read s.mem (base + BitVec.ofNat 32 (2 * k)) ++
          Memory.read s.mem (base + BitVec.ofNat 32 (2 * k + 1))))) e.reg)))).setRsp (some ⟨.ok, 0x0000#16⟩))

/-- R126: `NARROW(c)` is the code for characters below 0x0100 and the open parameter `NARROW_HI` for the others. -/
def Obligations.NarrowRule : Prop :=
  ∀ c : Half, (c.extractLsb' 8 8 = 0x00#8 → narrow c = c.extractLsb' 0 8) ∧
    (c.extractLsb' 8 8 ≠ 0x00#8 → narrow c = Sys2Proof.Config.narrowHi c)

/-- R127: two-byte `APPENDT` is `APPEND` over the same bytes; single-byte `APPENDT` of characters below 0x0100 is `APPEND` over their low
bytes, wherever a buffer holds them. -/
def Obligations.AppendtInTermsOfAppend : Prop :=
  (∀ (s : State) (base nchars : Word), 2 * nchars.toNat < 2 ^ 32 →
    exec (.appendt true true base nchars) s = exec (.append true false base (2#32 * nchars) 0#32 0#32) s) ∧
  (∀ (s : State) (m : List Host.Cell) (base base' nchars : Word),
    (∀ k, k < nchars.toNat → (charAt s.mem base k).extractLsb' 8 8 = 0x00#8 ∧
      Memory.read m (bufferAddr base' k) = (charAt s.mem base k).extractLsb' 0 8) →
    ∃ t u, exec (.appendt true false base nchars) s = .next t ∧
      exec (.append true false base' nchars 0#32 0#32) (s.setMem m) = .next u ∧ u.engine = t.engine ∧ u.rsp = t.rsp)

/-- R128: appending `B[0:k]` and then `B[k:]` leaves the state, and so the digest, that appending `B` once leaves. -/
def Obligations.IncrementalEquivalence : Prop :=
  ∀ (s : State) (e : Engine) (base n k : Word), s.engine = some e → k.toNat ≤ n.toNat →
    ∃ t u, exec (.append true false base k 0#32 0#32) s = .next t ∧
      exec (.append true false (base + k) (n - k) 0#32 0#32) t = .next u ∧
      exec (.append true false base n 0#32 0#32) s = .next u

/-- R129: a sub-range that passes the range check is appended as the buffer at `BASE + OFFSET` of `LENGTH` bytes would be. -/
def Obligations.SubrangeCorrectness : Prop :=
  ∀ (s : State) (base buflen offset length : Word), offset.toNat + length.toNat ≤ buflen.toNat →
    exec (.append true true base buflen offset length) s = exec (.append true false (base + offset) length 0#32 0#32) s

/-- R130: appending a zero-length range leaves the register, the instance and so the digest as they were. -/
def Obligations.EmptyInputChangesNothing : Prop :=
  (∀ (s : State) (e : Engine) (base buflen offset : Word), s.engine = some e → offset.toNat ≤ buflen.toNat →
    exec (.append true true base buflen offset 0#32) s = .next (s.setRsp (some ⟨.ok, 0x0000#16⟩))) ∧
  (∀ (s : State) (e : Engine) (base offset length : Word), s.engine = some e →
    exec (.append true false base 0#32 offset length) s = .next (s.setRsp (some ⟨.ok, 0x0000#16⟩))) ∧
  (∀ (s : State) (e : Engine) (enc : Bool) (base : Word), s.engine = some e →
    exec (.appendt true enc base 0#32) s = .next (s.setRsp (some ⟨.ok, 0x0000#16⟩)))

/-- What a command reads of the buffer space: `APPEND` that ends `OK` only the bytes of its sub-range, `APPENDT` only the two bytes of
each character, every other command and a command that raises nothing. Two buffer spaces that agree there give the same instance and
response (R54). -/
def Obligations.CommandsReadOnlyTheirBuffer : Prop :=
  (∀ (s : State) (m : List Host.Cell) (p r : Bool) (base buflen offset length : Word),
    (∀ k, k < (effectiveRange r buflen offset length).2 →
      Memory.read m (bufferAddr base ((effectiveRange r buflen offset length).1 + k)) =
        Memory.read s.mem (bufferAddr base ((effectiveRange r buflen offset length).1 + k))) →
    ∃ t, exec (.append p r base buflen offset length) s = .next t ∧
      exec (.append p r base buflen offset length) (s.setMem m) = .next (t.setMem m)) ∧
  (∀ (s : State) (m : List Host.Cell) (p enc : Bool) (base nchars : Word),
    (∀ j, j < 2 * nchars.toNat → Memory.read m (bufferAddr base j) = Memory.read s.mem (bufferAddr base j)) →
    ∃ t, exec (.appendt p enc base nchars) s = .next t ∧ exec (.appendt p enc base nchars) (s.setMem m) = .next (t.setMem m)) ∧
  (∀ (i : Instr) (s : State) (m : List Host.Cell), appends i = false →
    ∃ t, exec i s = .next t ∧ exec i (s.setMem m) = .next (t.setMem m)) ∧
  (∀ (i : Instr) (s t : State) (m : List Host.Cell), exec i s = .next t → t.lastOk = false →
    exec i (s.setMem m) = .next (t.setMem m))

/-! ### Digest (spec/43_digest.md) -/

/-- R150: the digest is `REG ^ XOROUT` when `REFOUT` = 1 and `REV16(REG) ^ XOROUT` when it is 0, in every constructed state. -/
def Obligations.DigestValue : Prop :=
  ∀ (s : State) (e : Engine), s.engine = some e →
    (e.cfg.refout = true → exec .digest s = .next (s.setRsp (some ⟨.ok, e.reg ^^^ e.cfg.xorout⟩))) ∧
    (e.cfg.refout = false → exec .digest s = .next (s.setRsp (some ⟨.ok, rev16 e.reg ^^^ e.cfg.xorout⟩)))

/-- R37: `DIGEST` changes no state: a pure read of the current register combined with `XOROUT` and the optional reversal. Only its
response is returned, so one more `DIGEST` returns the same. -/
def Obligations.DigestChangesNoState : Prop :=
  ∀ s : State, ∃ r, exec .digest s = .next (s.setRsp (some r)) ∧ exec .digest (s.setRsp (some r)) = .next (s.setRsp (some r)) ∧
    ∀ e, s.engine = some e → r = ⟨.ok, (if e.cfg.refout = true then e.reg else rev16 e.reg) ^^^ e.cfg.xorout⟩

/-- Right after a construction `DIGEST` returns the digest of the empty input (R151). -/
def Obligations.DigestOfTheEmptyInput : Prop :=
  ∀ (s : State) (refin refout : Bool) (poly init xorout : Half), ∃ t u,
    exec (.construct refin refout poly init xorout) s = .next t ∧ exec .digest t = .next u ∧
    u.rsp = some ⟨.ok, if refout = true then init ^^^ xorout else rev16 init ^^^ xorout⟩

/-- R152: two `DIGEST`s return the same response whenever no append or construction that ended `OK` lies between them. -/
def Obligations.DigestIsIdempotent : Prop :=
  ∀ s t : State, QuietRun s t → ∃ r, exec .digest s = .next (s.setRsp (some r)) ∧ exec .digest t = .next (t.setRsp (some r))

/-- R154: `REG` from the digest. -/
def Obligations.RegFromTheDigest : Prop :=
  ∀ (s t : State) (e : Engine) (d : Half), s.engine = some e → exec .digest s = .next t → t.rsp = some ⟨.ok, d⟩ →
    e.reg = if e.cfg.refout = true then d ^^^ e.cfg.xorout else rev16 (d ^^^ e.cfg.xorout)

/-! ### The one-shot helpers (spec/44_variant_catalog.md) -/

/-- R171: `COMPUTE` is its expansion, fails with `InvalidInput` on `NULL`, gives 0xBB3D on "123456789" and 0 on an empty buffer. -/
def Obligations.ComputeHelper : Prop :=
  (∀ buf : BufArg, assemble (.compute buf) = assemble .presetIeee8023 ++ assemble (.append buf) ++ assemble .digest) ∧
  (assemble (.compute (.given 0x00001000#32 9#32))).map encode = [[0x20000001#32],
    [0x30000001#32, 0x00001000#32, 0x00000009#32, 0x00000000#32, 0x00000000#32], [0x50000000#32]] ∧
  (∀ (s : State), ∃ t, runAsm (.compute .null) s = .next t ∧ t.rsp = some ⟨.invalidInput, 0x0000#16⟩) ∧
  (∀ (s : State) (base : Addr), bytesAt s.mem base 0 9 = checkInput →
    ∃ t u v, exec .presetIeee8023 s = .next t ∧ t.rsp = some ⟨.ok, 0x0000#16⟩ ∧
      exec (.append true false base 9#32 0#32 0#32) t = .next u ∧ u.rsp = some ⟨.ok, 0x0000#16⟩ ∧
      exec .digest u = .next v ∧ v.rsp = some ⟨.ok, 0xBB3D#16⟩ ∧ runAsm (.compute (.given base 9#32)) s = .next v) ∧
  (∀ (s : State) (base : Addr), ∃ t, runAsm (.compute (.given base 0#32)) s = .next t ∧ t.rsp = some ⟨.ok, 0x0000#16⟩)

/-- R172: `COMPUTER` is its expansion, fails with `InvalidInput` on `NULL` and with `RangeError` out of bounds, and gives 0xBB3D on bytes 2
to 10 of "xx123456789yy". -/
def Obligations.ComputerHelper : Prop :=
  (∀ (buf : BufArg) (off len : Word), assemble (.computer buf off len) =
    assemble .presetIeee8023 ++ assemble (.appendRange buf off len) ++ assemble .digest) ∧
  (∀ (s : State) (off len : Word), ∃ t, runAsm (.computer .null off len) s = .next t ∧ t.rsp = some ⟨.invalidInput, 0x0000#16⟩) ∧
  (∀ (s : State) (base buflen off len : Word), buflen.toNat < off.toNat + len.toNat →
    ∃ t, runAsm (.computer (.given base buflen) off len) s = .next t ∧ t.rsp = some ⟨.rangeError, 0x0000#16⟩) ∧
  (∀ (s : State) (base : Addr), bytesAt s.mem base 0 13 = [0x78#8, 0x78#8] ++ checkInput ++ [0x79#8, 0x79#8] →
    ∃ t, runAsm (.computer (.given base 13#32) 2#32 9#32) s = .next t ∧ t.rsp = some ⟨.ok, 0xBB3D#16⟩)

/-- R173: `COMPUTET` is its expansion, fails with `InvalidInput` on `NULL`, and gives 0x61B0 and 0x25D0 on the characters 0x0041, 0x0042 in
single-byte and two-byte mode. -/
def Obligations.ComputetHelper : Prop :=
  (∀ (txt : BufArg) (enc : Bool), assemble (.computet txt enc) =
    assemble .presetIeee8023 ++ assemble (.appendt txt enc) ++ assemble .digest) ∧
  (∀ (s : State) (enc : Bool), ∃ t, runAsm (.computet .null enc) s = .next t ∧ t.rsp = some ⟨.invalidInput, 0x0000#16⟩) ∧
  (∀ (s : State) (base : Addr), charAt s.mem base 0 = 0x0041#16 → charAt s.mem base 1 = 0x0042#16 →
    (∃ t, runAsm (.computet (.given base 2#32) false) s = .next t ∧ t.rsp = some ⟨.ok, 0x61B0#16⟩) ∧
    (∃ t, runAsm (.computet (.given base 2#32) true) s = .next t ∧ t.rsp = some ⟨.ok, 0x25D0#16⟩))

/-- A helper overwrites the engine it is issued to (R170): afterwards the engine is an IEEE 802.3 instance; if the helper succeeds its
result is that instance's digest, and if the append raises there is no digest and `REG` is 0. -/
def Obligations.HelperOverwritesTheEngine : Prop :=
  ∀ (s : State) (a : Asm), (∃ buf, a = .compute buf) ∨ (∃ buf off len, a = .computer buf off len) ∨ (∃ txt enc, a = .computet txt enc) →
    ∃ t e r, runAsm a s = .next t ∧ t.engine = some e ∧ t.rsp = some r ∧
      e.cfg = { poly := 0x8005#16, init := 0x0000#16, refin := true, refout := true, xorout := 0x0000#16 } ∧
      e.table = tableBuild 0x8005#16 ∧ (r.status = .ok → r.data = digestOf e) ∧ (r.status ≠ .ok → r.data = 0#16 ∧ e.reg = 0x0000#16)

/-! ### The host (spec/00_scope.md R14, spec/20_memory.md) -/

/-- The host's write of one byte of the buffer space is one step that changes that byte and no other, and every later command sees it
(R14, R51, R61). -/
def Obligations.HostWriteIsSeen : Prop :=
  ∀ (s : State) (a : Addr) (b : Byte) (rest : List HostMove), Memory.wf s.mem = true → s.host = .write a b :: rest →
    ∃ t, step s = .next t ∧ t.engine = s.engine ∧ t.rsp = s.rsp ∧ t.host = rest ∧
      ∀ x : Addr, Memory.read t.mem x = if x = a then b else Memory.read s.mem x

/-- Equal buffer spaces are equal data: two canonical lists that read the same at every address are the same list (R51). -/
def Obligations.BufferSpaceIsCanonical : Prop :=
  ∀ m m' : List Host.Cell, Memory.wf m = true → Memory.wf m' = true → (∀ a : Addr, Memory.read m a = Memory.read m' a) → m = m'

/-- Idle, the engine keeps all its state (R205). -/
def Obligations.IdleEngineKeepsItsState : Prop :=
  ∀ s : State, s.host = [] → step s = .next s

/-- The model's choice (logs 1, 7, 8 and 9, DEDUCED and DESIGN CHOICE): a packet cut short. With no move after its words the engine waits;
a reset takes effect and the words are lost; a write of the buffer space is refused as a move the host does not have. -/
def Obligations.PacketCutShort : Prop :=
  ∀ (s : State) (w0 : Word) (ops : List Word), ops.length + 1 < packetWords w0 →
    step (s.setHost (issueWords (w0 :: ops) [])) = .next (s.setHost (issueWords (w0 :: ops) [])) ∧
    (∀ rest, step (s.setHost (issueWords (w0 :: ops) (.reset :: rest))) =
      .next { engine := none, mem := s.mem, rsp := none, host := rest }) ∧
    (∀ a b rest, step (s.setHost (issueWords (w0 :: ops) (.write a b :: rest))) = .refused .hostProtocol)
end

