-- ==== Sys2Proof/Laws/Decode.lean ====
section
/-! SUPPORT. The fields of the header words the encoder writes (spec/30_encoding.md R72 to R78). -/

namespace Sys2Proof

@[simp] theorem opcOf_flagsHeader (opc : BitVec 4) (b1 b0 : Bool) : opcOf (flagsHeader opc b1 b0) = opc := by
  revert opc b1 b0; decide

@[simp] theorem reserved_flagsHeader (opc : BitVec 4) (b1 b0 : Bool) :
    (flagsHeader opc b1 b0).extractLsb' 2 26 = 0#26 := by
  revert opc b1 b0; decide

@[simp] theorem bit0_flagsHeader (opc : BitVec 4) (b1 b0 : Bool) : (flagsHeader opc b1 b0).getLsbD 0 = b0 := by
  revert opc b1 b0; decide

@[simp] theorem bit1_flagsHeader (opc : BitVec 4) (b1 b0 : Bool) : (flagsHeader opc b1 b0).getLsbD 1 = b1 := by
  revert opc b1 b0; decide

/-- A field inside the high part of a concatenation is a field of that part. -/
theorem extract_append_high {n m : Nat} (h : BitVec n) (l : BitVec m) (k len : Nat) :
    (h ++ l).extractLsb' (m + k) len = h.extractLsb' k len := by
  ext i hi
  simp only [BitVec.getElem_extractLsb', BitVec.getLsbD_append]
  simp [show ¬ m + k + i < m by omega, show m + k + i - m = k + i by omega]

/-- The low part of a concatenation. -/
theorem extract_append_low {n m : Nat} (h : BitVec n) (l : BitVec m) : (h ++ l).extractLsb' 0 m = l := by
  ext i hi
  simp [BitVec.getLsbD_append, hi]

/-- The high part of a concatenation. -/
theorem extract_append_top {n m : Nat} (h : BitVec n) (l : BitVec m) : (h ++ l).extractLsb' m n = h := by
  have := extract_append_high h l 0 n
  simpa using this

@[simp] theorem opcOf_rev8Header (v : Byte) : opcOf (0x600000#24 ++ v) = 0x6#4 := by
  have := extract_append_high 0x600000#24 v 20 4
  simpa [opcOf] using this

@[simp] theorem reserved_rev8Header (v : Byte) : (0x600000#24 ++ v).extractLsb' 8 20 = 0#20 := by
  have := extract_append_high 0x600000#24 v 0 20
  simpa using this

@[simp] theorem val8_rev8Header (v : Byte) : (0x600000#24 ++ v).extractLsb' 0 8 = v := extract_append_low _ _

@[simp] theorem opcOf_rev16Header (v : Half) : opcOf (0x7000#16 ++ v) = 0x7#4 := by
  have := extract_append_high 0x7000#16 v 12 4
  simpa [opcOf] using this

@[simp] theorem reserved_rev16Header (v : Half) : (0x7000#16 ++ v).extractLsb' 16 12 = 0#12 := by
  have := extract_append_high 0x7000#16 v 0 12
  simpa using this

@[simp] theorem val16_rev16Header (v : Half) : (0x7000#16 ++ v).extractLsb' 0 16 = v := extract_append_low _ _

/-- The two halves of an operand word (R72: `w1` = `INIT`:`POLY`). -/
theorem low_half (h l : Half) : (h ++ l : Word).extractLsb' 0 16 = l := extract_append_low h l

theorem high_half (h l : Half) : (h ++ l : Word).extractLsb' 16 16 = h := extract_append_top h l

/-! ### What the decoder reads from the encoder's headers -/

@[simp] theorem decodeHeader_construct (refout refin : Bool) :
    decodeHeader (flagsHeader 0x1#4 refout refin) = .construct refin refout := by
  revert refout refin; decide

@[simp] theorem decodeHeader_append (r p : Bool) : decodeHeader (flagsHeader 0x3#4 r p) = .append p r := by
  revert r p; decide

@[simp] theorem decodeHeader_appendt (enc p : Bool) : decodeHeader (flagsHeader 0x4#4 enc p) = .appendt p enc := by
  revert enc p; decide

@[simp] theorem decodeHeader_rev8 (v : Byte) : decodeHeader (0x600000#24 ++ v) = .rev8 v := by
  simp [decodeHeader]

@[simp] theorem decodeHeader_rev16 (v : Half) : decodeHeader (0x7000#16 ++ v) = .rev16 v := by
  simp [decodeHeader]

@[simp] theorem packetWords_flagsHeader (opc : BitVec 4) (b1 b0 : Bool) :
    packetWords (flagsHeader opc b1 b0) = if opc = 0x1#4 then 3 else if opc = 0x3#4 then 5 else if opc = 0x4#4 then 3 else 1 := by
  simp [packetWords]

@[simp] theorem packetWords_rev8 (v : Byte) : packetWords (0x600000#24 ++ v) = 1 := by simp [packetWords]

@[simp] theorem packetWords_rev16 (v : Half) : packetWords (0x7000#16 ++ v) = 1 := by simp [packetWords]

theorem constructOf_halves (refin refout : Bool) (init poly ign xorout : Half) :
    constructOf refin refout (init ++ poly) (ign ++ xorout) = .construct refin refout poly init xorout := by
  simp only [constructOf, low_half, high_half]

/-- A whole packet is decoded from its header and its operand words. -/
theorem decode_cons {w0 : Word} {ops : List Word} (h : packetWords w0 ≤ ops.length + 1) :
    decode (w0 :: ops) = decodeOperands (decodeHeader w0) (operandWord ops 0) (operandWord ops 1) (operandWord ops 2)
      (operandWord ops 3) := by
  rw [decode, if_neg (by omega)]

/-- Fewer words than the header asks for are no packet (R70). -/
theorem decode_short {w0 : Word} {ops : List Word} (h : ops.length + 1 < packetWords w0) : decode (w0 :: ops) = .incomplete := by
  rw [decode, if_pos h]

theorem presetOf_cases (v : BitVec 3) : (∃ i, presetOf v = .preset i ∧ WellFormed i = true) ∨ presetOf v = .illegal .reservedVariant := by
  unfold presetOf
  repeat' split
  all_goals first | exact .inl ⟨_, rfl, rfl⟩ | exact .inr rfl

/-- How many words a packet has, by what its header says (R70). -/
theorem packetWords_of_header (w0 : Word) :
    (∀ a b, decodeHeader w0 = .construct a b → packetWords w0 = 3) ∧
    (∀ a b, decodeHeader w0 = .append a b → packetWords w0 = 5) ∧
    (∀ a b, decodeHeader w0 = .appendt a b → packetWords w0 = 3) := by
  unfold decodeHeader packetWords
  generalize opcOf w0 = x
  split
  · split <;> simp
  · split
    · split
      · rcases presetOf_cases (w0.extractLsb' 0 3) with ⟨i, h, _⟩ | h <;> rw [h] <;> simp
      · simp
    · split
      · split <;> simp
      · split
        · split <;> simp
        · refine ⟨?_, ?_, ?_⟩ <;> intro a b h <;> (repeat' split at h) <;> simp at h

/-- A whole packet decodes the same whatever words follow it (R70). -/
theorem decode_append {w0 : Word} {ops : List Word} (h : packetWords w0 = ops.length + 1) (rest : List Word) :
    decode (w0 :: (ops ++ rest)) = decode (w0 :: ops) := by
  have hop : ∀ k, k < ops.length → operandWord (ops ++ rest) k = operandWord ops k := by
    intro k hk
    simp [operandWord, List.getD, List.getElem?_append_left hk]
  obtain ⟨hc, ha, ht⟩ := packetWords_of_header w0
  rw [decode_cons (by simp; omega), decode_cons (by omega)]
  cases hd : decodeHeader w0 with
  | construct a b =>
    have := hc _ _ hd
    simp only [decodeOperands, hop 0 (by omega), hop 1 (by omega)]
  | append a b =>
    have := ha _ _ hd
    simp only [decodeOperands, hop 0 (by omega), hop 1 (by omega), hop 2 (by omega), hop 3 (by omega)]
  | appendt a b =>
    have := ht _ _ hd
    simp only [decodeOperands, hop 0 (by omega), hop 1 (by omega)]
  | preset i => rfl
  | digest => rfl
  | rev8 v => rfl
  | rev16 v => rfl
  | illegal why => rfl

/-- A whole packet is never incomplete. -/
theorem decode_ne_incomplete {w0 : Word} {ops : List Word} (h : packetWords w0 ≤ ops.length + 1) :
    decode (w0 :: ops) ≠ .incomplete := by
  rw [decode_cons h]
  cases decodeHeader w0 <;> simp [decodeOperands]

end Sys2Proof
end

