-- ==== Sys2Proof/Laws/State.lean ====
section
/-! SUPPORT. One lemma per field per update of State, and the laws of the updates, so that no proof unfolds a record. -/

namespace Sys2Proof.Machine

@[simp] theorem State.setEngine_engine (s : State) (x : Option Engine) : (s.setEngine x).engine = x := rfl

@[simp] theorem State.setEngine_mem (s : State) (x : Option Engine) : (s.setEngine x).mem = s.mem := rfl

@[simp] theorem State.setEngine_rsp (s : State) (x : Option Engine) : (s.setEngine x).rsp = s.rsp := rfl

@[simp] theorem State.setEngine_host (s : State) (x : Option Engine) : (s.setEngine x).host = s.host := rfl

@[simp] theorem State.setEngine_setEngine (s : State) (x y : Option Engine) : (s.setEngine x).setEngine y = s.setEngine y := rfl

@[simp] theorem State.setEngine_self (s : State) : s.setEngine s.engine = s := rfl

@[simp] theorem State.setRsp_engine (s : State) (x : Option Response) : (s.setRsp x).engine = s.engine := rfl

@[simp] theorem State.setRsp_mem (s : State) (x : Option Response) : (s.setRsp x).mem = s.mem := rfl

@[simp] theorem State.setRsp_rsp (s : State) (x : Option Response) : (s.setRsp x).rsp = x := rfl

@[simp] theorem State.setRsp_host (s : State) (x : Option Response) : (s.setRsp x).host = s.host := rfl

@[simp] theorem State.setRsp_setRsp (s : State) (x y : Option Response) : (s.setRsp x).setRsp y = s.setRsp y := rfl

@[simp] theorem State.setRsp_self (s : State) : s.setRsp s.rsp = s := rfl

@[simp] theorem State.setMem_engine (s : State) (x : List Host.Cell) : (s.setMem x).engine = s.engine := rfl

@[simp] theorem State.setMem_mem (s : State) (x : List Host.Cell) : (s.setMem x).mem = x := rfl

@[simp] theorem State.setMem_rsp (s : State) (x : List Host.Cell) : (s.setMem x).rsp = s.rsp := rfl

@[simp] theorem State.setMem_host (s : State) (x : List Host.Cell) : (s.setMem x).host = s.host := rfl

@[simp] theorem State.setMem_setMem (s : State) (x y : List Host.Cell) : (s.setMem x).setMem y = s.setMem y := rfl

@[simp] theorem State.setMem_self (s : State) : s.setMem s.mem = s := rfl

@[simp] theorem State.setHost_engine (s : State) (x : List HostMove) : (s.setHost x).engine = s.engine := rfl

@[simp] theorem State.setHost_mem (s : State) (x : List HostMove) : (s.setHost x).mem = s.mem := rfl

@[simp] theorem State.setHost_rsp (s : State) (x : List HostMove) : (s.setHost x).rsp = s.rsp := rfl

@[simp] theorem State.setHost_host (s : State) (x : List HostMove) : (s.setHost x).host = x := rfl

@[simp] theorem State.setHost_setHost (s : State) (x y : List HostMove) : (s.setHost x).setHost y = s.setHost y := rfl

@[simp] theorem State.setHost_self (s : State) : s.setHost s.host = s := rfl

theorem State.setRsp_setEngine (s : State) (x : Option Engine) (y : Option Response) :
    (s.setEngine x).setRsp y = (s.setRsp y).setEngine x := rfl

theorem State.setMem_setEngine (s : State) (x : Option Engine) (y : List Host.Cell) :
    (s.setEngine x).setMem y = (s.setMem y).setEngine x := rfl

theorem State.setHost_setEngine (s : State) (x : Option Engine) (y : List HostMove) :
    (s.setEngine x).setHost y = (s.setHost y).setEngine x := rfl

theorem State.setMem_setRsp (s : State) (x : Option Response) (y : List Host.Cell) :
    (s.setRsp x).setMem y = (s.setMem y).setRsp x := rfl

theorem State.setHost_setRsp (s : State) (x : Option Response) (y : List HostMove) :
    (s.setRsp x).setHost y = (s.setHost y).setRsp x := rfl

theorem State.setHost_setMem (s : State) (x : List Host.Cell) (y : List HostMove) :
    (s.setMem x).setHost y = (s.setHost y).setMem x := rfl

@[simp] theorem Engine.setReg_reg (e : Engine) (r : Half) : (e.setReg r).reg = r := rfl

@[simp] theorem Engine.setReg_cfg (e : Engine) (r : Half) : (e.setReg r).cfg = e.cfg := rfl

@[simp] theorem Engine.setReg_table (e : Engine) (r : Half) : (e.setReg r).table = e.table := rfl

@[simp] theorem Engine.setReg_self (e : Engine) : e.setReg e.reg = e := rfl

@[simp] theorem Engine.setReg_setReg (e : Engine) (r q : Half) : (e.setReg r).setReg q = e.setReg q := rfl

@[simp] theorem freshEngine_cfg (c : Cfg) : (freshEngine c).cfg = c := rfl

@[simp] theorem freshEngine_table (c : Cfg) : (freshEngine c).table = tableBuild c.poly := rfl

@[simp] theorem freshEngine_reg (c : Cfg) : (freshEngine c).reg = c.init := rfl

@[simp] theorem takeReset_engine (s : State) : (takeReset s).engine = none := rfl

@[simp] theorem takeReset_mem (s : State) : (takeReset s).mem = s.mem := rfl

@[simp] theorem takeReset_rsp (s : State) : (takeReset s).rsp = none := rfl

@[simp] theorem takeReset_host (s : State) : (takeReset s).host = s.host := rfl

@[simp] theorem hostWrite_engine (s : State) (a : Addr) (b : Byte) : (hostWrite s a b).engine = s.engine := rfl

@[simp] theorem hostWrite_mem (s : State) (a : Addr) (b : Byte) : (hostWrite s a b).mem = Memory.write s.mem a b := rfl

@[simp] theorem hostWrite_rsp (s : State) (a : Addr) (b : Byte) : (hostWrite s a b).rsp = s.rsp := rfl

@[simp] theorem hostWrite_host (s : State) (a : Addr) (b : Byte) : (hostWrite s a b).host = s.host := rfl

/-- `VALID` is 1 exactly while an instance is there (R30). -/
theorem State.valid_eq_true_iff (s : State) : s.valid = true ↔ ∃ e, s.engine = some e := by
  simp [State.valid, Option.isSome_iff_exists]

/-- `VALID` is 0 exactly while no instance is there (R30). -/
theorem State.valid_eq_false_iff (s : State) : s.valid = false ↔ s.engine = none := by
  simp [State.valid]

@[simp] theorem State.setEngine_valid (s : State) (x : Option Engine) : (s.setEngine x).valid = x.isSome := rfl

@[simp] theorem State.setRsp_valid (s : State) (x : Option Response) : (s.setRsp x).valid = s.valid := rfl

@[simp] theorem State.setHost_valid (s : State) (x : List HostMove) : (s.setHost x).valid = s.valid := rfl

@[simp] theorem State.setMem_valid (s : State) (x : List Host.Cell) : (s.setMem x).valid = s.valid := rfl

end Sys2Proof.Machine
end

