-- ==== Sys2Proof/Laws/Exec.lean ====
section
/-! SUPPORT. What a command and what a step can do, said once: the inversion lemmas of the shared operations, of exec and of step. -/

namespace Sys2Proof.Machine

theorem respond_eq (s : State) (d : Half) : respond s d = .next (s.setRsp (some ⟨.ok, d⟩)) := rfl

theorem raise_eq (s : State) (st : Status) : raise s st = .next (s.setRsp (some ⟨st, 0#16⟩)) := rfl

theorem construct_eq (c : Cfg) (s : State) :
    construct c s = .next ((s.setEngine (some (freshEngine c))).setRsp (some ⟨.ok, 0#16⟩)) := rfl

theorem commitReg_eq (s : State) (e : Engine) (r : Half) :
    commitReg s e r = .next ((s.setEngine (some (e.setReg r))).setRsp (some ⟨.ok, 0#16⟩)) := rfl

/-- A range check that passes, in the natural numbers (R123). -/
theorem inBounds_iff (range : Nat × Nat) (buflen : Word) :
    inBounds range buflen = true ↔ range.1 + range.2 ≤ buflen.toNat := by
  simp [inBounds]

/-- How `APPEND` ends (R124): raised with nothing changed, or `REG` written and (`OK`, 0). -/
theorem execAppend_cases (p r : Bool) (base buflen offset length : Word) (s : State) :
    (∃ st, st ≠ .ok ∧ execAppend p r base buflen offset length s = .next (s.setRsp (some ⟨st, 0#16⟩))) ∨
    (∃ e q, s.engine = some e ∧ execAppend p r base buflen offset length s =
      .next ((s.setEngine (some (e.setReg q))).setRsp (some ⟨.ok, 0#16⟩))) := by
  unfold execAppend
  cases he : s.engine with
  | none => exact .inl ⟨.illegalCommand, by decide, rfl⟩
  | some e =>
    dsimp only
    split
    · exact .inl ⟨.invalidInput, by decide, rfl⟩
    · split
      · exact .inl ⟨.rangeError, by decide, rfl⟩
      · exact .inr ⟨e, _, rfl, rfl⟩

/-- How `APPENDT` ends (R125). -/
theorem execAppendt_cases (p enc : Bool) (base nchars : Word) (s : State) :
    (∃ st, st ≠ .ok ∧ execAppendt p enc base nchars s = .next (s.setRsp (some ⟨st, 0#16⟩))) ∨
    (∃ e q, s.engine = some e ∧ execAppendt p enc base nchars s =
      .next ((s.setEngine (some (e.setReg q))).setRsp (some ⟨.ok, 0#16⟩))) := by
  unfold execAppendt
  cases he : s.engine with
  | none => exact .inl ⟨.illegalCommand, by decide, rfl⟩
  | some e =>
    dsimp only
    split
    · exact .inl ⟨.invalidInput, by decide, rfl⟩
    · exact .inr ⟨e, _, rfl, rfl⟩

/-- What one command can do (R38): begin an instance, write `REG`, only respond, or raise with nothing changed. -/
theorem exec_cases (i : Instr) (s : State) :
    (∃ c, constructs i = true ∧
      exec i s = .next ((s.setEngine (some (freshEngine c))).setRsp (some ⟨.ok, 0#16⟩))) ∨
    (∃ e q, constructs i = false ∧ appends i = true ∧ s.engine = some e ∧
      exec i s = .next ((s.setEngine (some (e.setReg q))).setRsp (some ⟨.ok, 0#16⟩))) ∨
    (∃ d, constructs i = false ∧ appends i = false ∧ exec i s = .next (s.setRsp (some ⟨.ok, d⟩))) ∨
    (∃ st, constructs i = false ∧ st ≠ .ok ∧ exec i s = .next (s.setRsp (some ⟨st, 0#16⟩))) := by
  cases i with
  | construct => exact .inl ⟨_, rfl, rfl⟩
  | presetArc => exact .inl ⟨_, rfl, rfl⟩
  | presetIeee8023 => exact .inl ⟨_, rfl, rfl⟩
  | presetCcitt => exact .inl ⟨_, rfl, rfl⟩
  | presetKermit => exact .inl ⟨_, rfl, rfl⟩
  | presetX25 => exact .inl ⟨_, rfl, rfl⟩
  | presetXmodem => exact .inl ⟨_, rfl, rfl⟩
  | presetZmodem => exact .inl ⟨_, rfl, rfl⟩
  | append p r base buflen offset length =>
    rcases execAppend_cases p r base buflen offset length s with ⟨st, h, hs⟩ | ⟨e, q, he, hs⟩
    · exact .inr (.inr (.inr ⟨st, rfl, h, hs⟩))
    · exact .inr (.inl ⟨e, q, rfl, rfl, he, hs⟩)
  | appendt p enc base nchars =>
    rcases execAppendt_cases p enc base nchars s with ⟨st, h, hs⟩ | ⟨e, q, he, hs⟩
    · exact .inr (.inr (.inr ⟨st, rfl, h, hs⟩))
    · exact .inr (.inl ⟨e, q, rfl, rfl, he, hs⟩)
  | digest =>
    cases he : s.engine with
    | none => exact .inr (.inr (.inr ⟨.illegalCommand, rfl, by decide, by simp [exec, execDigest, he, raise_eq]⟩))
    | some e => exact .inr (.inr (.inl ⟨digestOf e, rfl, rfl, by simp [exec, execDigest, he, respond_eq]⟩))
  | rev8 v => exact .inr (.inr (.inl ⟨_, rfl, rfl, rfl⟩))
  | rev16 v => exact .inr (.inr (.inl ⟨_, rfl, rfl, rfl⟩))

/-- A packet has at most five words (R70). -/
theorem packetWords_le (w0 : Word) : packetWords w0 ≤ 5 := by
  unfold packetWords
  split
  · omega
  · split
    · omega
    · split <;> omega

/-- A packet has its header word (R70). -/
theorem packetWords_pos (w0 : Word) : 0 < packetWords w0 := by
  unfold packetWords
  split
  · omega
  · split
    · omega
    · split <;> omega

/-- The moves are the words at the front and what follows them. -/
theorem host_eq_words (h : List HostMove) : h = (leadingWords h).map HostMove.word ++ afterWords h := by
  induction h with
  | nil => rfl
  | cons m h ih => cases m <;> simp [leadingWords, afterWords, ← ih]

/-- The first move after the words at the front is no word. -/
theorem afterWords_not_word (h : List HostMove) (w : Word) (rest : List HostMove) : afterWords h ≠ .word w :: rest := by
  induction h with
  | nil => simp [afterWords]
  | cons m h ih => cases m <;> simp [afterWords, ih]

/-- The words at the front of the host's moves once a packet is put there. -/
theorem leadingWords_issueWords (ws : List Word) (rest : List HostMove) :
    leadingWords (issueWords ws rest) = ws ++ leadingWords rest := by
  induction ws with
  | nil => rfl
  | cons w ws ih => simpa [issueWords, leadingWords] using ih

/-- What follows the words at the front is not changed by words put before them. -/
theorem afterWords_issueWords (ws : List Word) (rest : List HostMove) : afterWords (issueWords ws rest) = afterWords rest := by
  induction ws with
  | nil => rfl
  | cons w ws ih => simpa [issueWords, afterWords] using ih

/-- Taking a whole packet leaves the moves after it (R70). -/
theorem takePacket_issueWords {s : State} {w0 : Word} {ops : List Word} {rest : List HostMove}
    (h : s.host = issueWords (w0 :: ops) rest) (hl : packetWords w0 = ops.length + 1) : takePacket s = s.setHost rest := by
  unfold takePacket
  rw [h]
  simp [issueWords, packetLength, hl]

/-- The packet pending when a whole packet has been put at the front. -/
theorem pending_issueWords {s : State} {w0 : Word} {ops : List Word} {rest : List HostMove}
    (h : s.host = issueWords (w0 :: ops) rest) (hl : packetWords w0 = ops.length + 1) : s.pending = decode (w0 :: ops) := by
  rw [State.pending, h, leadingWords_issueWords, List.cons_append, decode_append hl]

/-- With a word at the front, the step is that of the packet. -/
theorem step_of_word {s : State} {w0 : Word} {rest : List HostMove} (h : s.host = .word w0 :: rest) : step s = packetStep s := by
  simp only [step, nextMove, h]

/-- The move after the words at the front, and the moves after it. -/
theorem drop_words (l : List HostMove) (ws : List Word) (m : HostMove) (rest : List HostMove)
    (h : l = ws.map HostMove.word ++ m :: rest) : l[ws.length]? = some m ∧ l.drop (ws.length + 1) = rest := by
  subst h
  constructor
  · simp
  · rw [← List.drop_drop]; simp

/-- Words short of a packet are fewer than five (R70). -/
theorem length_lt_of_incomplete {ws : List Word} (h : decode ws = .incomplete) : ws.length < 5 := by
  cases ws with
  | nil => simp
  | cons w0 ops =>
    simp only [decode] at h
    split at h
    · rename_i hl
      have := packetWords_le w0
      simp only [List.length_cons]
      omega
    · cases hh : decodeHeader w0 <;> simp [hh, decodeOperands] at h

/-- What one step can do: a command, the response to an illegal packet, a reset with at most four words of an abandoned packet before
it, a write of the buffer space, or nothing. -/
theorem step_cases {s t : State} (h : step s = .next t) :
    (∃ i, s.pending = .instr i ∧ exec i (takePacket s) = .next t) ∨
    (∃ why, s.pending = .illegal why ∧ t = (takePacket s).setRsp (some ⟨.illegalCommand, 0#16⟩)) ∨
    (∃ k, k < 5 ∧ s.host[k]? = some .reset ∧ t = takeReset (s.setHost (s.host.drop (k + 1)))) ∨
    (∃ a b rest, s.host = .write a b :: rest ∧ t = hostWrite (s.setHost rest) a b) ∨ t = s := by
  unfold step nextMove at h
  cases hh : s.host with
  | nil => simp [hh, hostStep] at h; simp [h]
  | cons m rest =>
    cases m with
    | reset =>
      simp only [hh, hostStep] at h
      refine .inr (.inr (.inl ⟨0, by omega, by simp, ?_⟩))
      simpa using (Host.Outcome.next.inj h).symm
    | write a b =>
      simp only [hh, hostStep] at h
      exact .inr (.inr (.inr (.inl ⟨a, b, rest, rfl, (Host.Outcome.next.inj h).symm⟩)))
    | word w =>
      simp only [hh] at h
      unfold packetStep at h
      cases hd : decode (leadingWords s.host) with
      | instr i => rw [hd] at h; exact .inl ⟨i, hd, h⟩
      | illegal why =>
        rw [hd] at h
        exact .inr (.inl ⟨why, hd, by simpa [raise_eq] using h.symm⟩)
      | incomplete =>
        rw [hd] at h
        have hlen := length_lt_of_incomplete hd
        have hsplit := host_eq_words s.host
        simp only [partialPacketStep] at h
        cases ha : afterWords s.host with
        | nil => simp [ha] at h; simp [h]
        | cons m' rest' =>
          cases m' with
          | word w' => exact absurd ha (afterWords_not_word _ _ _)
          | write a b => simp [ha] at h
          | reset =>
            simp only [ha] at h
            rw [ha] at hsplit
            obtain ⟨hat, hdrop⟩ := drop_words _ _ _ _ hsplit
            refine .inr (.inr (.inl ⟨_, hlen, hh ▸ hat, ?_⟩))
            rw [← hh, hdrop]
            exact (Host.Outcome.next.inj h).symm

end Sys2Proof.Machine
end

