-- ==== Sys2Proof/Laws/Memory.lean ====
section
/-! SUPPORT. The laws of the buffer space: a read after a write, and that a write keeps the canonical form (spec/20_memory.md R51). -/

namespace Sys2Proof.Machine

/-- A canonical list above a bound is canonical above every lower bound. -/
theorem Memory.wfFrom_of_le {lo lo' : Nat} {m : List Host.Cell} (h : lo' ≤ lo) (hm : Memory.wfFrom lo m = true) :
    Memory.wfFrom lo' m = true := by
  cases m with
  | nil => rfl
  | cons c m =>
    simp only [Memory.wfFrom, Bool.and_eq_true, decide_eq_true_eq] at hm ⊢
    exact ⟨⟨⟨by omega, hm.1.1.2⟩, hm.1.2⟩, hm.2⟩

/-- An address below the bound of a canonical list is not listed. -/
theorem Memory.lookup_below {lo a : Nat} {m : List Host.Cell} (h : Memory.wfFrom lo m = true) (ha : a < lo) :
    Memory.lookup m a = Memory.unlisted := by
  induction m generalizing lo with
  | nil => rfl
  | cons c m ih =>
    obtain ⟨k, b⟩ := c
    simp only [Memory.wfFrom, Bool.and_eq_true, decide_eq_true_eq] at h
    simp only [Memory.lookup, show ¬ k = a by omega, if_false]
    exact ih h.2 (by omega)

/-- Reading any address after setting one: the byte set at that address, the old byte elsewhere. -/
theorem Memory.lookup_insert {lo : Nat} {m : List Host.Cell} (h : Memory.wfFrom lo m = true) (a x : Nat) (b : Byte) :
    Memory.lookup (Memory.insert m a b) x = if x = a then b else Memory.lookup m x := by
  induction m generalizing lo with
  | nil =>
    simp only [Memory.insert, Memory.lookup]
    split_ifs with hb hx hx
    · simp [Memory.lookup, hb]
    · rfl
    · simp [Memory.lookup, hx]
    · simp [Memory.lookup, Ne.symm hx]
  | cons c m ih =>
    obtain ⟨k, c⟩ := c
    simp only [Memory.wfFrom, Bool.and_eq_true, decide_eq_true_eq] at h
    have below : ∀ y, y ≤ k → Memory.lookup m y = Memory.unlisted := fun y hy => Memory.lookup_below h.2 (by omega)
    simp only [Memory.insert]
    by_cases hx : x = a
    · subst hx
      rw [if_pos rfl]
      split_ifs with hlt hb hk hb
      · have hkx : ¬ k = x := by omega
        simp [Memory.lookup, hkx, below x (by omega), hb]
      · simp [Memory.lookup]
      · simp [below x (by omega), hb]
      · simp [Memory.lookup]
      · have hkx : ¬ k = x := by omega
        simp [Memory.lookup, hkx, ih h.2]
    · have hxa : ¬ a = x := fun e => hx e.symm
      rw [if_neg hx]
      split_ifs with hlt hb hk hb
      · rfl
      · simp [Memory.lookup, hxa]
      · have hkx : ¬ k = x := by omega
        simp [Memory.lookup, hkx]
      · have hkx : ¬ k = x := by omega
        simp [Memory.lookup, hxa, hkx]
      · simp [Memory.lookup, ih h.2, hx]

/-- Setting a byte keeps the canonical form. -/
theorem Memory.insert_wf {lo : Nat} {m : List Host.Cell} (h : Memory.wfFrom lo m = true) {a : Nat} (b : Byte)
    (hlo : lo ≤ a) (ha : a < 2 ^ 32) : Memory.wfFrom lo (Memory.insert m a b) = true := by
  induction m generalizing lo with
  | nil => by_cases hb : b = Memory.unlisted <;> simp_all [Memory.insert, Memory.wfFrom]
  | cons c m ih =>
    obtain ⟨k, c⟩ := c
    have hc := h
    simp only [Memory.wfFrom, Bool.and_eq_true, decide_eq_true_eq] at h
    simp only [Memory.insert]
    by_cases hlt : a < k
    · by_cases hb : b = Memory.unlisted
      · simp only [hlt, hb, if_true]; exact hc
      · simp only [hlt, hb, if_true, if_false, Memory.wfFrom, Bool.and_eq_true, decide_eq_true_eq, bne_iff_ne]
        exact ⟨⟨⟨hlo, ha⟩, hb⟩, ⟨⟨⟨hlt, h.1.1.2⟩, by simpa using h.1.2⟩, h.2⟩⟩
    · by_cases hak : a = k
      · subst hak
        by_cases hb : b = Memory.unlisted
        · simp only [hlt, hb, if_true, if_false]
          exact Memory.wfFrom_of_le (by omega) h.2
        · simp only [hlt, hb, if_true, if_false, Memory.wfFrom, Bool.and_eq_true, decide_eq_true_eq, bne_iff_ne]
          exact ⟨⟨⟨hlo, ha⟩, hb⟩, h.2⟩
      · simp only [hlt, hak, if_false, Memory.wfFrom, Bool.and_eq_true, decide_eq_true_eq]
        exact ⟨h.1, ih h.2 (by omega)⟩

/-- The host's write keeps the canonical form. -/
theorem Memory.write_wf {m : List Host.Cell} (h : Memory.wf m = true) (a : Addr) (b : Byte) :
    Memory.wf (Memory.write m a b) = true :=
  Memory.insert_wf h b (Nat.zero_le _) a.isLt

/-- A read after the host's write. -/
theorem Memory.read_write {m : List Host.Cell} (h : Memory.wf m = true) (a x : Addr) (b : Byte) :
    Memory.read (Memory.write m a b) x = if x = a then b else Memory.read m x := by
  simp only [Memory.read, Memory.write, Memory.lookup_insert h, ← BitVec.toNat_inj]

/-- Reset memory lists nothing and is canonical. -/
theorem Memory.wf_nil : Memory.wf [] = true := rfl

end Sys2Proof.Machine
end

