-- ==== Sys2Proof/Laws/PerInstr.lean ====
section
/-! SUPPORT. Per-command lemmas. Family EncodingLength: the packet the encoder writes has the number of words its own header says
(spec/30_encoding.md R70). -/

/-- The encoded packet is a header word and as many operand words as its `OPC` asks for (R70). -/
def Sys2Proof.Laws.EncodingLength.Statement (i : Sys2Proof.Instr) : Prop :=
  ∃ w0 ops, Sys2Proof.encode i = w0 :: ops ∧ Sys2Proof.packetWords w0 = ops.length + 1

theorem Sys2Proof.Laws.EncodingLength.construct (refin refout : Bool) (poly init xorout : Sys2Proof.Half) :
    Statement (.construct refin refout poly init xorout) :=
  ⟨_, _, rfl, by simp [Sys2Proof.packetWords]⟩

theorem Sys2Proof.Laws.EncodingLength.presetArc : Statement .presetArc := ⟨_, _, rfl, rfl⟩

theorem Sys2Proof.Laws.EncodingLength.presetIeee8023 : Statement .presetIeee8023 := ⟨_, _, rfl, rfl⟩

theorem Sys2Proof.Laws.EncodingLength.presetCcitt : Statement .presetCcitt := ⟨_, _, rfl, rfl⟩

theorem Sys2Proof.Laws.EncodingLength.presetKermit : Statement .presetKermit := ⟨_, _, rfl, rfl⟩

theorem Sys2Proof.Laws.EncodingLength.presetX25 : Statement .presetX25 := ⟨_, _, rfl, rfl⟩

theorem Sys2Proof.Laws.EncodingLength.presetXmodem : Statement .presetXmodem := ⟨_, _, rfl, rfl⟩

theorem Sys2Proof.Laws.EncodingLength.presetZmodem : Statement .presetZmodem := ⟨_, _, rfl, rfl⟩

theorem Sys2Proof.Laws.EncodingLength.append (p r : Bool) (base buflen offset length : Sys2Proof.Word) :
    Statement (.append p r base buflen offset length) :=
  ⟨_, _, rfl, by simp [Sys2Proof.packetWords]⟩

theorem Sys2Proof.Laws.EncodingLength.appendt (p enc : Bool) (base nchars : Sys2Proof.Word) :
    Statement (.appendt p enc base nchars) :=
  ⟨_, _, rfl, by simp [Sys2Proof.packetWords]⟩

theorem Sys2Proof.Laws.EncodingLength.digest : Statement .digest := ⟨_, _, rfl, rfl⟩

theorem Sys2Proof.Laws.EncodingLength.rev8 (v : Sys2Proof.Byte) : Statement (.rev8 v) :=
  ⟨_, _, rfl, by simp [Sys2Proof.packetWords]⟩

theorem Sys2Proof.Laws.EncodingLength.rev16 (v : Sys2Proof.Half) : Statement (.rev16 v) :=
  ⟨_, _, rfl, by simp [Sys2Proof.packetWords]⟩
end

