-- ==== Sys2Proof/Tests/Slice0.lean ====
section
/-! SUPPORT. Tests of the model. Expected values are the spec's: its worked encodings (spec/30_encoding.md R88) and its test vectors
(spec/95_test_vectors.md), each cited; then one witness for every statement that has hypotheses. -/

namespace Sys2Proof.Machine

/-! ### Well-formedness: an ill-formed command for each check of R83 -/

theorem test_wf_accepts : [Instr.append true true 0x1000#32 9#32 5#32 4#32, .append true false 0x1000#32 9#32 0#32 0#32,
    .append false false 0#32 0#32 0#32 0#32, .appendt true false 0x3000#32 2#32, .appendt false true 0#32 0#32,
    .construct true false 0x8005#16 0x1234#16 0x5678#16, .digest, .rev8 0xFF#8, .rev16 0xFFFF#16, .presetArc,
    .presetZmodem].map WellFormed = List.replicate 11 true := by decide

theorem test_wf_refuses_append_null_r : WellFormed (.append false true 0#32 0#32 0#32 0#32) = false := by decide
theorem test_wf_refuses_append_null_base : WellFormed (.append false false 1#32 0#32 0#32 0#32) = false := by decide
theorem test_wf_refuses_append_null_buflen : WellFormed (.append false false 0#32 1#32 0#32 0#32) = false := by decide
theorem test_wf_refuses_append_null_offset : WellFormed (.append false false 0#32 0#32 1#32 0#32) = false := by decide
theorem test_wf_refuses_append_null_length : WellFormed (.append false false 0#32 0#32 0#32 1#32) = false := by decide
theorem test_wf_refuses_append_whole_offset : WellFormed (.append true false 0#32 9#32 1#32 0#32) = false := by decide
theorem test_wf_refuses_append_whole_length : WellFormed (.append true false 0#32 9#32 0#32 1#32) = false := by decide
theorem test_wf_refuses_appendt_null_base : WellFormed (.appendt false true 1#32 0#32) = false := by decide
theorem test_wf_refuses_appendt_null_nchars : WellFormed (.appendt false false 0#32 1#32) = false := by decide

/-! ### Decoding: the words of R88 and of spec/95_test_vectors.md -/

/-- R88, and `CONSTRUCT 0x8005, 0x1234, 1, 0, 0x5678` (95 section 4.1): `REFIN` is bit 0, `REFOUT` bit 1. -/
theorem test_decode_construct :
    decode [0x10000001#32, 0x12348005#32, 0x00005678#32] = .instr (.construct true false 0x8005#16 0x1234#16 0x5678#16) ∧
    decode [0x10000000#32, 0xFFFF1021#32, 0x00000000#32] = .instr (.construct false false 0x1021#16 0xFFFF#16 0x0000#16) := by
  decide

/-- R80, 95 section 4.1. -/
theorem test_decode_presets : [0x20000000#32, 0x20000001#32, 0x20000002#32, 0x20000003#32, 0x20000004#32, 0x20000005#32,
    0x20000006#32].map (fun w => decode [w]) = [.instr .presetArc, .instr .presetIeee8023, .instr .presetCcitt, .instr .presetKermit,
      .instr .presetX25, .instr .presetXmodem, .instr .presetZmodem] := by decide

/-- R88; and the ignored fields of R83 (95 section 4.4: `P` = 0 and `R` = 0 with the other fields set). -/
theorem test_decode_append :
    decode [0x30000001#32, 0x00001000#32, 9#32, 0#32, 0#32] = .instr (.append true false 0x1000#32 9#32 0#32 0#32) ∧
    decode [0x30000003#32, 0x00002000#32, 13#32, 2#32, 9#32] = .instr (.append true true 0x2000#32 13#32 2#32 9#32) ∧
    decode [0x30000002#32, 0x00001000#32, 9#32, 0xFFFFFFFF#32, 0xFFFFFFFF#32] = .instr (.append false false 0#32 0#32 0#32 0#32) ∧
    decode [0x30000001#32, 0x00001000#32, 9#32, 0xFFFFFFFF#32, 0xFFFFFFFF#32] =
      .instr (.append true false 0x1000#32 9#32 0#32 0#32) := by decide

/-- R88, 95 section 4.5. -/
theorem test_decode_appendt :
    decode [0x40000003#32, 0x00003000#32, 2#32] = .instr (.appendt true true 0x3000#32 2#32) ∧
    decode [0x40000001#32, 0x00003000#32, 2#32] = .instr (.appendt true false 0x3000#32 2#32) ∧
    decode [0x40000002#32, 0x00003000#32, 2#32] = .instr (.appendt false true 0#32 0#32) := by decide

/-- R88, 95 section 2. -/
theorem test_decode_digest_and_reversal : decode [0x50000000#32] = .instr .digest ∧
    decode [0x60000031#32] = .instr (.rev8 0x31#8) ∧ decode [0x600000FE#32] = .instr (.rev8 0xFE#8) ∧
    decode [0x70008005#32] = .instr (.rev16 0x8005#16) ∧ decode [0x70001D0F#32] = .instr (.rev16 0x1D0F#16) := by decide

/-- The illegal words of 95 section 4.7, with the number of words each takes. -/
theorem test_decode_illegal : [0x00000000#32, 0x80000000#32, 0xF0000000#32, 0xFFFFFFFF#32, 0x10000004#32, 0x18000000#32, 0x20000007#32,
    0x20000008#32, 0x30000004#32, 0x40000004#32, 0x50000001#32, 0x60000100#32, 0x70010000#32].map
      (fun w => (packetWords w, decode [w, 0#32, 0#32, 0#32, 0#32])) =
    [(1, .illegal .reservedOpcode), (1, .illegal .reservedOpcode), (1, .illegal .reservedOpcode), (1, .illegal .reservedOpcode),
     (3, .illegal .reservedBit), (3, .illegal .reservedBit), (1, .illegal .reservedVariant), (1, .illegal .reservedBit),
     (5, .illegal .reservedBit), (3, .illegal .reservedBit), (1, .illegal .reservedBit), (1, .illegal .reservedBit),
     (1, .illegal .reservedBit)] := by decide

/-- A packet that lacks a word is no packet yet (R70). -/
theorem test_decode_incomplete : decode [] = .incomplete ∧ decode [0x10000000#32, 0#32] = .incomplete ∧
    decode [0x30000001#32, 0#32, 0#32, 0#32] = .incomplete ∧ decode [0x40000001#32, 0#32] = .incomplete := by decide

/-- The opcode map of R79 on headers around each row: a row's match, and that word with each single bit flipped. The words for which
exactly the decoded command's row matches, or none where the decoder rejects. -/
def headerAgrees (w : Word) : Bool :=
  match decode [w, 0#32, 0#32, 0#32, 0#32] with
  | .instr i => (opcodeMap.filter (fun row => row.selects w)).map OpcodeRow.mnemonic == [mnemonicOf i]
  | .illegal _ => (opcodeMap.filter (fun row => row.selects w)).isEmpty
  | .incomplete => false

theorem test_opcode_map_rows : opcodeMap.all (fun row => headerAgrees row.value &&
    (List.range 32).all (fun k => headerAgrees (row.value ^^^ (1#32 <<< k)))) = true := by decide +kernel

/-- The numbering of spec/opcode_table.json: a later word's bits count on from the first's. -/
theorem test_decode_table_word :
    decodeTableWord 96 0x000056781234800510000001 = some (.construct true false 0x8005#16 0x1234#16 0x5678#16) ∧
    decodeTableWord 32 0x30000003 = some (.append true true 0#32 0#32 0#32 0#32) ∧
    decodeTableWord 32 0x20000007 = none := by decide

/-! ### One-step tests -/

/-- A buffer space with bytes written by the host from an address on. -/
def put : Addr → List Byte → List Host.Cell → List Host.Cell
  | _, [], m => m
  | a, b :: bs, m => put (a + 1#32) bs (Memory.write m a b)

/-- Buffer `N` of 95 section 4.4. -/
def memN : List Host.Cell := put 0x00001000#32 checkInput []

/-- Buffer `S` of 95 section 4.3. -/
def memS : List Host.Cell := put 0x00002000#32 ([0x78#8, 0x78#8] ++ checkInput ++ [0x79#8, 0x79#8]) []

/-- Texts `T1` and `T3` of 95 section 4.5. -/
def memT : List Host.Cell := put 0x00003200#32 [0x20#8, 0xAC#8] (put 0x00003000#32 [0x00#8, 0x41#8, 0x00#8, 0x42#8] [])

/-- A state with a fresh instance, a buffer space and a packet issued. -/
def fresh (c : Cfg) (m : List Host.Cell) (ws : List Word) : State :=
  { engine := some (freshEngine c), mem := m, rsp := none, host := issueWords ws [] }

/-- `REG` and the response word after a step. -/
def seen (o : Host.Outcome State Fault Refusal) : Option (Option Half × Option Word) :=
  match o with
  | .next t => some (t.engine.map Engine.reg, t.rsp.map responseWord)
  | .fault _ => none
  | .refused _ => none

/-- 95 section 4.1, `CONSTRUCT 0x8005, 0x1234, 1, 0, 0x5678`. -/
theorem test_construct_mixed :
    seen (step (State.reset.setHost (issueWords [0x10000001#32, 0x12348005#32, 0x00005678#32] []))) =
      some (some 0x1234#16, some 0x00000000#32) := by decide +kernel

/-- 95 section 4.1: `REG` after each preset, from reset. -/
theorem test_presets_reg : [0x20000000#32, 0x20000001#32, 0x20000002#32, 0x20000003#32, 0x20000004#32, 0x20000005#32, 0x20000006#32].map
    (fun w => seen (step (State.reset.setHost (issueWords [w] [])))) =
    [0x0000#16, 0x0000#16, 0xFFFF#16, 0x0000#16, 0xFFFF#16, 0x0000#16, 0x0000#16].map
      (fun r => some (some r, some 0x00000000#32)) := by decide +kernel

/-- 95 section 4.2: rows of `Fold`, the byte reversed for `CCITT` and not for the others. -/
theorem test_fold_rows :
    fold (freshEngine cfgArc) 0xFFFF#16 0x80#8 = 0xE0BE#16 ∧ fold (freshEngine cfgCcitt) 0x1234#16 0x31#8 = 0x39D1#16 ∧
    fold (freshEngine cfgX25) 0xFFFF#16 0x31#8 = 0x2F8D#16 ∧ fold (freshEngine cfgXmodem) 0xABCD#16 0xFF#8 = 0x0D70#16 := by
  decide +kernel

/-- 95 section 3: entries 01, 02, 03, 40, 80, FF for polynomials outside the catalog. -/
theorem test_table_other_polynomials : [0x8000#16, 0xFFFF#16, 0xA001#16, 0x1234#16].map (fun p =>
      [0x01#8, 0x02#8, 0x03#8, 0x40#8, 0x80#8, 0xFF#8].map (fun i => entry (tableBuild p) i)) =
    [[0x0001#16, 0x0001#16, 0x0000#16, 0x0001#16, 0x0001#16, 0x0000#16], [0x0200#16, 0x0400#16, 0x0600#16, 0x8000#16, 0xFFFF#16, 0x01FF#16],
     [0x9705#16, 0x2E01#16, 0xB904#16, 0xC007#16, 0x8005#16, 0x8D05#16], [0x2999#16, 0x0BA3#16, 0x223A#16, 0x1624#16, 0x2C48#16, 0x2F07#16]] := by
  decide +kernel

/-- 95 section 4.4, on `PRESET.X25`: every row's status and `REG`. -/
theorem test_append_errors : [[0x30000003#32, 0x1000#32, 9#32, 0#32, 9#32], [0x30000003#32, 0x1000#32, 9#32, 0#32, 10#32],
    [0x30000003#32, 0x1000#32, 9#32, 9#32, 0#32], [0x30000003#32, 0x1000#32, 9#32, 10#32, 0#32],
    [0x30000003#32, 0x1000#32, 9#32, 5#32, 4#32], [0x30000003#32, 0x1000#32, 9#32, 5#32, 5#32],
    [0x30000003#32, 0x1000#32, 9#32, 0xFFFFFFFF#32, 1#32], [0x30000003#32, 0x1000#32, 9#32, 0x80000000#32, 0x80000000#32],
    [0x30000000#32, 0#32, 0#32, 0#32, 0#32], [0x30000001#32, 0x1000#32, 9#32, 0xFFFFFFFF#32, 0xFFFFFFFF#32],
    [0x30000001#32, 0x1000#32, 0#32, 0#32, 0#32], [0x30000005#32, 0x1000#32, 9#32, 0#32, 0#32]].map
      (fun ws => seen (step (fresh cfgX25 memN ws))) =
    [(0x6F91#16, 0x00000000#32), (0xFFFF#16, 0x00020000#32), (0xFFFF#16, 0x00000000#32), (0xFFFF#16, 0x00020000#32),
     (0xDAC2#16, 0x00000000#32), (0xFFFF#16, 0x00020000#32), (0xFFFF#16, 0x00020000#32), (0xFFFF#16, 0x00020000#32),
     (0xFFFF#16, 0x00010000#32), (0x6F91#16, 0x00000000#32), (0xFFFF#16, 0x00000000#32), (0xFFFF#16, 0x00030000#32)].map
      (fun v => some (some v.1, some v.2)) := by decide +kernel

/-- 95 section 4.3: the buffer that wraps past the top of the space. -/
theorem test_append_wraps :
    seen (step (fresh cfgArc (put 0xFFFFFFFE#32 [0x31#8, 0x32#8, 0x33#8, 0x34#8] []) [0x30000001#32, 0xFFFFFFFE#32, 4#32, 0#32, 0#32])) =
      some (some 0x14BA#16, some 0x00000000#32) := by decide +kernel

/-- 95 section 4.5: texts `T1` on `ARC` and `CCITT` in both modes, `T3` in two-byte mode, no text, the empty text. -/
theorem test_appendt_rows : [(cfgArc, [0x40000001#32, 0x3000#32, 2#32]), (cfgArc, [0x40000003#32, 0x3000#32, 2#32]),
    (cfgCcitt, [0x40000001#32, 0x3000#32, 2#32]), (cfgCcitt, [0x40000003#32, 0x3000#32, 2#32]),
    (cfgArc, [0x40000003#32, 0x3200#32, 1#32]), (cfgArc, [0x40000002#32, 0#32, 0#32]), (cfgArc, [0x40000001#32, 0x3000#32, 0#32])].map
      (fun v => seen (step (fresh v.1 memT v.2))) =
    [(0x61B0#16, 0x00000000#32), (0x25D0#16, 0x00000000#32), (0x2ED2#16, 0x00000000#32), (0xDB63#16, 0x00000000#32),
     (0xBD19#16, 0x00000000#32), (0x0000#16, 0x00010000#32), (0x0000#16, 0x00000000#32)].map
      (fun v => some (some v.1, some v.2)) := by decide +kernel

/-- 95 section 4.5, `T3` in single-byte mode: the byte folded is the open parameter's, whatever it is, and the command ends `OK`. -/
theorem test_appendt_narrow_hi_runs : exec (.appendt true false 0x3200#32 1#32) (fresh cfgArc memT []) = .next
    (((fresh cfgArc memT []).setEngine (some ((freshEngine cfgArc).setReg
      (fold (freshEngine cfgArc) 0x0000#16 (Config.narrowHi 0x20AC#16))))).setRsp (some ⟨.ok, 0x0000#16⟩)) := by rfl

/-- 95 section 4.6 and section 5: digests by `REFOUT` and `XOROUT`. -/
theorem test_digest_rows :
    digestOf { freshEngine cfgCcitt with reg := 0x8D94#16 } = 0x29B1#16 ∧ digestOf { freshEngine cfgX25 with reg := 0x6F91#16 } = 0x906E#16 ∧
    digestOf { freshEngine ⟨0x8005#16, 0x1234#16, true, false, 0x5678#16⟩ with reg := 0xAFDB#16 } = 0x8D8D#16 ∧
    digestOf { freshEngine ⟨0x8005#16, 0x0000#16, false, true, 0x0000#16⟩ with reg := 0x177F#16 } = 0x177F#16 := by decide +kernel

/-- 95 section 4.6: unconstructed, and with reserved bit 0 set. -/
theorem test_digest_illegal :
    seen (step (State.reset.setHost (issueWords [0x50000000#32] []))) = some (none, some 0x00030000#32) ∧
    seen (step (fresh cfgArc [] [0x50000001#32])) = some (some 0x0000#16, some 0x00030000#32) := by decide +kernel

/-- 95 section 2, `REV8`. -/
theorem test_rev8_rows : [0x00#8, 0x01#8, 0x0F#8, 0x10#8, 0x31#8, 0x7F#8, 0xA5#8, 0xFE#8].map rev8 =
    [0x00#8, 0x80#8, 0xF0#8, 0x08#8, 0x8C#8, 0xFE#8, 0xA5#8, 0x7F#8] := by decide +kernel

/-- 95 section 6, program 3, row 3: `REV16 0x8005` before any construction. -/
theorem test_rev16_unconstructed :
    seen (step (State.reset.setHost (issueWords [0x70008005#32] []))) = some (none, some 0x0000A001#32) := by decide +kernel

/-- 95 section 5: `INIT` loaded unreversed (1D0F, not REV16 of it), and a mixed reflection. -/
theorem test_explicit_configurations : [(⟨0x1021#16, 0x1D0F#16, false, false, 0x0000#16⟩, 0xB401#16),
    (⟨0x8005#16, 0x0000#16, false, true, 0x0000#16⟩, 0x177F#16), (⟨0xFFFF#16, 0x0001#16, false, false, 0xFFFF#16⟩, 0x8C25#16)].map
      (fun (v : Cfg × Half) => checkInput.foldl (fold (freshEngine v.1)) v.1.init == v.2) = [true, true, true] := by decide +kernel

/-- 95 section 6, program 4: the helpers, on the ranges and texts of R171 to R173. -/
theorem test_helpers :
    seen (runAsm (.compute (.given 0x1000#32 9#32)) (fresh cfgKermit memN [])) = some (some 0xBB3D#16, some 0x0000BB3D#32) ∧
    seen (runAsm (.computer (.given 0x2000#32 13#32) 2#32 9#32) (fresh cfgKermit memS [])) = some (some 0xBB3D#16, some 0x0000BB3D#32) ∧
    seen (runAsm (.computer (.given 0x2000#32 13#32) 2#32 12#32) (fresh cfgKermit memS [])) = some (some 0x0000#16, some 0x00020000#32) ∧
    seen (runAsm (.computet (.given 0x3000#32 2#32) false) (fresh cfgKermit memT [])) = some (some 0x61B0#16, some 0x000061B0#32) ∧
    seen (runAsm (.computet (.given 0x3000#32 2#32) true) (fresh cfgKermit memT [])) = some (some 0x25D0#16, some 0x000025D0#32) := by
  decide +kernel

/-- The packet placed by `withFetchWord` is the first thing the machine runs after reset. -/
theorem test_fetch_word_runs :
    seen (step (State.reset.withFetchWord 32 0x20000004)) = some (some 0xFFFF#16, some 0x00000000#32) ∧
    seen (step (State.reset.withFetchWord 96 0x000056781234800510000001)) = some (some 0x1234#16, some 0x00000000#32) ∧
    seen (step (State.reset.withFetchWord 32 0x30000003)) = some (none, some 0x00030000#32) := by decide +kernel

/-! ### Witnesses: each statement with hypotheses has a state and operands that meet all of them -/

/-- An X25 instance with buffer `N`. -/
def wState : State := fresh cfgX25 memN []

/-- The same with a packet issued. -/
def wHost (ws : List Word) : State := fresh cfgX25 memN ws

theorem wState_engine : wState.engine = some (freshEngine cfgX25) := rfl

theorem witness_DecodeOfEncodeIsTheCommand : WellFormed (.append true true 0xFFFFFFFF#32 9#32 0xFFFFFFFF#32 1#32) = true ∧
    WellFormed (.append false false 0#32 0#32 0#32 0#32) = true ∧ WellFormed (.appendt false true 0#32 0#32) = true := by decide

theorem witness_DecodedCommandIsWellFormed :
    decode [0x30000002#32, 1#32, 2#32, 3#32, 4#32] = .instr (.append false false 0#32 0#32 0#32 0#32) := by decide

theorem witness_IgnoredFieldsChangeNothing : [0#32, 0#32].length = [1#32, 2#32].length ∧
    decode [0x10000004#32, 0#32, 0#32] = .illegal .reservedBit := by decide

theorem witness_IllegalEncodings : packetWords 0x30000004#32 = [1#32, 2#32, 3#32, 4#32].length + 1 ∧ IllegalHeader 0x30000004#32 := by
  unfold IllegalHeader; decide

/-- One word for each clause of `IllegalHeader`. -/
theorem witness_IllegalHeader_clauses (w : Word) (hw : w ∈ [0x00000000#32, 0x80000000#32, 0xF0000000#32, 0x10000004#32, 0x38000000#32,
    0x40000004#32, 0x20000008#32, 0x50000001#32, 0x58000000#32, 0x60000100#32, 0x70010000#32, 0x20000007#32]) : IllegalHeader w := by
  fin_cases hw <;> (unfold IllegalHeader; decide)

/-- Legal words next to them. -/
theorem witness_IllegalHeader_not (w : Word) (hw : w ∈ [0x10000003#32, 0x20000006#32, 0x30000003#32, 0x40000003#32, 0x50000000#32,
    0x600000FF#32, 0x7000FFFF#32]) : ¬ IllegalHeader w := by
  fin_cases hw <;> (unfold IllegalHeader; decide)

theorem witness_HeaderSelectsOneRow : packetWords 0x600000FF#32 ≤ ([] : List Word).length + 1 ∧
    decode [0x600000FF#32] = .instr (.rev8 0xFF#8) ∧ (∃ row ∈ opcodeMap, row.selects 0x600000FF#32 = true) ∧
    (∀ row ∈ opcodeMap, row.selects 0x60000100#32 = false) := by decide

theorem witness_PacketTakesItsWords : packetWords 0x10000000#32 = [0#32, 0#32].length + 1 ∧
    packetWords 0x3FFFFFFF#32 = [0#32, 0#32, 0#32, 0#32].length + 1 ∧ packetWords 0xF0000000#32 = ([] : List Word).length + 1 := by decide

theorem witness_StepRunsTheDecodedCommand :
    (wHost [0x40000003#32, 0x3000#32, 2#32]).host = issueWords [0x40000003#32, 0x3000#32, 2#32] [] ∧
    packetWords 0x40000003#32 = [0x3000#32, 2#32].length + 1 ∧
    decode [0x40000003#32, 0x3000#32, 2#32] = .instr (.appendt true true 0x3000#32 2#32) := by decide

theorem witness_IssuedCommandRuns : WellFormed (.append true true 0x1000#32 9#32 5#32 4#32) = true ∧
    (wHost (encode (.append true true 0x1000#32 9#32 5#32 4#32))).host = issueWords (encode (.append true true 0x1000#32 9#32 5#32 4#32)) [] := by
  exact ⟨by decide, rfl⟩

/-- A digest that ends `OK`, and an illegal packet. -/
theorem witness_ResponseWordAndData : exec .digest wState = .next (wState.setRsp (some ⟨.ok, 0x0000#16⟩)) ∧
    (wHost [0x20000007#32]).pending = .illegal .reservedVariant ∧
    step (wHost [0x20000007#32]) = .next (wState.setRsp (some ⟨.illegalCommand, 0x0000#16⟩)) := ⟨rfl, by decide, rfl⟩

/-- An instance, a range one byte too long, a command that raises. -/
theorem witness_FailureLeavesStateUnchanged : wState.engine = some (freshEngine cfgX25) ∧ (9#32).toNat < (5#32).toNat + (5#32).toNat ∧
    exec (.append false false 0#32 0#32 0#32 0#32) wState = .next (wState.setRsp (some ⟨.invalidInput, 0x0000#16⟩)) ∧
    (wState.setRsp (some ⟨.invalidInput, 0x0000#16⟩)).lastOk = false := ⟨rfl, by decide, rfl, rfl⟩

/-- One state and packet for each value the first applying error takes. -/
theorem witness_FirstErrorThatApplies :
    exec (.append false true 0#32 0#32 1#32 1#32) State.reset = .next (State.reset.setRsp (some ⟨.illegalCommand, 0x0000#16⟩)) ∧
    exec (.append false true 0#32 0#32 1#32 1#32) wState = .next (wState.setRsp (some ⟨.invalidInput, 0x0000#16⟩)) ∧
    exec (.append true true 0x1000#32 9#32 10#32 0#32) wState = .next (wState.setRsp (some ⟨.rangeError, 0x0000#16⟩)) ∧
    exec (.append true true 0x1000#32 9#32 9#32 0#32) wState = .next (wState.setRsp (some ⟨.ok, 0x0000#16⟩)) ∧
    exec (.appendt false true 0#32 0#32) wState = .next (wState.setRsp (some ⟨.invalidInput, 0x0000#16⟩)) ∧
    exec .digest State.reset = .next (State.reset.setRsp (some ⟨.illegalCommand, 0x0000#16⟩)) := ⟨rfl, rfl, rfl, rfl, rfl, rfl⟩

theorem witness_NoCommandReadsTheLastResponse : (wHost [0x50000000#32]).host = issueWords [0x50000000#32] [] ∧
    packetWords 0x50000000#32 = ([] : List Word).length + 1 := by decide

/-- The state after reset, and a construction from it. -/
theorem witness_ResetLeavesNoInstance : State.reset.valid = false ∧
    exec .presetX25 State.reset = .next ((State.reset.setEngine (some (freshEngine cfgX25))).setRsp (some ⟨.ok, 0x0000#16⟩)) ∧
    ((State.reset.setEngine (some (freshEngine cfgX25))).setRsp (some ⟨.ok, 0x0000#16⟩)).valid = true := ⟨rfl, rfl, rfl⟩

theorem witness_ResetEvent : (wState.setHost [.reset]).host = .reset :: [] := rfl

/-- A reset in place of a packet, and one between the words of a packet. -/
theorem witness_ValidClearedByReset : (wState.setHost [.reset]).valid = true ∧
    step (wState.setHost [.reset]) = .next (State.reset.setMem memN) ∧
    step (wState.setHost [.word 0x30000001#32, .word 0x1000#32, .reset]) = .next (State.reset.setMem memN) ∧
    (State.reset.setMem memN).valid = false := ⟨rfl, rfl, rfl, rfl⟩

theorem wHost_tableCoherent (ws : List Word) : tableCoherent (wHost ws) = true := by
  simp [wHost, fresh, tableCoherent, freshEngine]

theorem wState_mem_wf : Memory.wf memN = true := by decide +kernel

theorem witness_Inv : wState.Inv ∧ State.reset.Inv := ⟨⟨wState_mem_wf, wHost_tableCoherent []⟩, by decide⟩

/-- A step from a state with the invariant: a command, and the host's write. -/
theorem witness_EveryStepKeepsTheInvariant : (wHost [0x20000003#32]).Inv ∧
    step (wHost [0x20000003#32]) = .next ((wState.setEngine (some (freshEngine cfgKermit))).setRsp (some ⟨.ok, 0x0000#16⟩)) ∧
    step (wState.setHost [.write 0x1000#32 0#8]) = .next (hostWrite wState 0x1000#32 0#8) := ⟨⟨wState_mem_wf, wHost_tableCoherent _⟩, rfl, rfl⟩

/-- Packets with a write and a reset between them, and a packet cut short. -/
theorem witness_FramedHost : (wState.setHost (issueWords [0x40000003#32, 0x3000#32, 2#32]
    (.write 0x1000#32 5#8 :: .word 0x30000001#32 :: .reset :: .write 0x1000#32 6#8 :: issueWords [0x10000000#32, 1#32] []))).framed = true ∧
    (wState.setHost [.word 0x30000001#32, .write 0#32 0#8]).framed = false := by decide

/-- A packet that is no construction, with an instance before and after; an append that changes `REG`. -/
theorem witness_WithinOneInstance : (wHost [0x30000001#32, 0x1000#32, 9#32, 0#32, 0#32]).engine = some (freshEngine cfgX25) ∧
    (wHost [0x30000001#32, 0x1000#32, 9#32, 0#32, 0#32]).pending = .instr (.append true false 0x1000#32 9#32 0#32 0#32) ∧
    constructs (.append true false 0x1000#32 9#32 0#32 0#32) = false ∧
    seen (step (wHost [0x30000001#32, 0x1000#32, 9#32, 0#32, 0#32])) = some (some 0x6F91#16, some 0x00000000#32) ∧
    (freshEngine cfgX25).reg ≠ 0x6F91#16 := ⟨rfl, by decide, rfl, by decide +kernel, by decide⟩

/-- A command that raises, and each of the three that never change `REG`. -/
theorem witness_RegKept : exec .digest wState = .next (wState.setRsp (some ⟨.ok, 0x0000#16⟩)) ∧
    exec (.rev8 0x31#8) wState = .next (wState.setRsp (some ⟨.ok, 0x008C#16⟩)) ∧
    exec (.rev16 0x8005#16) wState = .next (wState.setRsp (some ⟨.ok, 0xA001#16⟩)) ∧
    exec .digest State.reset = .next (State.reset.setRsp (some ⟨.illegalCommand, 0x0000#16⟩)) ∧
    (State.reset.setRsp (some ⟨.illegalCommand, 0x0000#16⟩)).lastOk = false := ⟨rfl, rfl, rfl, rfl, rfl⟩

/-- `FrameOfEveryCommand`: a construction, an append and a command that is neither give a next state. -/
theorem witness_FrameOfEveryCommand : (∃ t, exec .presetArc wState = .next t) ∧
    (∃ t, exec (.append true false 0x1000#32 9#32 0#32 0#32) wState = .next t ∧ constructs (.append true false 0x1000#32 9#32 0#32 0#32) = false) ∧
    (∃ t, exec .digest wState = .next t ∧ constructs .digest = false ∧ appends .digest = false) :=
  ⟨⟨_, rfl⟩, ⟨_, rfl, rfl⟩, ⟨_, rfl, rfl, rfl⟩⟩

theorem witness_OnlyTheHostWrites : (∃ t, step (wState.setHost [.reset]) = .next t) ∧
    ∀ a b rest, (wState.setHost [.reset]).host ≠ .write a b :: rest := ⟨⟨_, rfl⟩, fun _ _ _ h => by cases h⟩

theorem witness_Rev8Command_reserved : opcOf 0x60000100#32 = 0x6#4 ∧ (0x60000100#32).extractLsb' 8 20 ≠ 0#20 := by decide

theorem witness_Rev16Command_reserved : opcOf 0x78000000#32 = 0x7#4 ∧ (0x78000000#32).extractLsb' 16 12 ≠ 0#12 := by decide

theorem witness_Rev8Command : (wHost [0x600000#24 ++ 0xFF#8]).host = issueWords [0x600000#24 ++ 0xFF#8] [] := rfl

theorem witness_Rev16Command : (wHost [0x7000#16 ++ 0xFFFF#16]).host = issueWords [0x7000#16 ++ 0xFFFF#16] [] := rfl

theorem witness_PresetStates : bytesAt wState.mem 0x1000#32 0 9 = checkInput := by decide +kernel

theorem witness_FoldEqualsBitSerialDivision : (freshEngine cfgCcitt).table = tableBuild (freshEngine cfgCcitt).cfg.poly := rfl

theorem witness_ZeroPolynomial : (freshEngine ⟨0#16, 0xBEEF#16, true, true, 0#16⟩).table = tableBuild 0x0000#16 := rfl

/-- The sub-range up to the end, the empty one at the end, and the whole buffer. -/
theorem witness_AppendFoldsTheSubrange : wState.engine = some (freshEngine cfgX25) ∧
    (5, 4) = (if true = true then ((5#32).toNat, (4#32).toNat) else (0, (9#32).toNat)) ∧ 5 + 4 ≤ (9#32).toNat ∧
    (9, 0) = (if true = true then ((9#32).toNat, (0#32).toNat) else (0, (9#32).toNat)) ∧ 9 + 0 ≤ (9#32).toNat ∧
    (0, 9) = (if false = true then ((7#32).toNat, (7#32).toNat) else (0, (9#32).toNat)) ∧ 0 + 9 ≤ (9#32).toNat := ⟨rfl, by decide⟩

/-- In bounds, out of bounds by one, and an offset one past the end. -/
theorem witness_RangeCheck : wState.engine = some (freshEngine cfgX25) ∧ (5#32).toNat + (4#32).toNat ≤ (9#32).toNat ∧
    (9#32).toNat < (5#32).toNat + (5#32).toNat ∧ (9#32).toNat < (10#32).toNat := ⟨rfl, by decide⟩

theorem witness_NarrowRule : (0x00FF#16).extractLsb' 8 8 = 0x00#8 ∧ (0x0100#16).extractLsb' 8 8 ≠ 0x00#8 := by decide

/-- Two characters below 0x0100 and their low bytes in another buffer. -/
theorem witness_AppendtInTermsOfAppend : 2 * (0x7FFFFFFF#32).toNat < 2 ^ 32 ∧ ∀ k, k < (2#32).toNat →
    (charAt memT 0x3000#32 k).extractLsb' 8 8 = 0x00#8 ∧
    Memory.read (put 0x1000#32 [0x41#8, 0x42#8] []) (bufferAddr 0x1000#32 k) = (charAt memT 0x3000#32 k).extractLsb' 0 8 := by
  decide +kernel

/-- Splits at both ends and in the middle. -/
theorem witness_IncrementalEquivalence : wState.engine = some (freshEngine cfgX25) ∧
    (0#32).toNat ≤ (9#32).toNat ∧ (4#32).toNat ≤ (9#32).toNat ∧ (9#32).toNat ≤ (9#32).toNat := ⟨rfl, by decide⟩

theorem witness_SubrangeCorrectness : (2#32).toNat + (9#32).toNat ≤ (13#32).toNat ∧
    (13#32).toNat + (0#32).toNat ≤ (13#32).toNat := by decide

theorem witness_EmptyInput : wState.engine = some (freshEngine cfgX25) ∧ (9#32).toNat ≤ (9#32).toNat := ⟨rfl, by decide⟩

/-- Two buffer spaces that agree on a buffer and differ outside it, for each way of reading. -/
theorem witness_CommandsReadOnlyTheirBuffer :
    (∀ k, k < (effectiveRange true 9#32 5#32 4#32).2 →
      Memory.read (put 0x1000#32 [0xAA#8] memN) (bufferAddr 0x1000#32 ((effectiveRange true 9#32 5#32 4#32).1 + k)) =
        Memory.read memN (bufferAddr 0x1000#32 ((effectiveRange true 9#32 5#32 4#32).1 + k))) ∧
    (∀ j, j < 2 * (2#32).toNat → Memory.read (put 0x3200#32 [0xAA#8] memT) (bufferAddr 0x3000#32 j) =
      Memory.read memT (bufferAddr 0x3000#32 j)) ∧
    appends .digest = false ∧ exec .digest State.reset = .next (State.reset.setRsp (some ⟨.illegalCommand, 0x0000#16⟩)) ∧
    (State.reset.setRsp (some ⟨.illegalCommand, 0x0000#16⟩)).lastOk = false :=
  ⟨by decide +kernel, by decide +kernel, rfl, rfl, rfl⟩

/-- An instance for each value of `REFOUT`. -/
theorem witness_DigestValue : wState.engine = some (freshEngine cfgX25) ∧ (freshEngine cfgX25).cfg.refout = true ∧
    (fresh cfgCcitt [] []).engine = some (freshEngine cfgCcitt) ∧ (freshEngine cfgCcitt).cfg.refout = false := ⟨rfl, rfl, rfl, rfl⟩

/-- A digest, a reversal, an append that raises, an illegal packet, a write: no append or construction that ended `OK`. -/
theorem witness_DigestIsIdempotent :
    QuietRun (wState.setHost [.word 0x20000007#32, .write 0x1000#32 0#8])
      (hostWrite (wState.setRsp (some ⟨.illegalCommand, 0x0000#16⟩)) 0x1000#32 0#8) :=
  .command _ ((wState.setHost [.word 0x20000007#32, .write 0x1000#32 0#8]).setRsp (some ⟨.ok, 0x0000#16⟩)) _ .digest rfl (.inl ⟨rfl, rfl⟩)
    (.command _ ((wState.setHost [.word 0x20000007#32, .write 0x1000#32 0#8]).setRsp (some ⟨.ok, 0x008C#16⟩)) _ (.rev8 0x31#8) rfl
      (.inl ⟨rfl, rfl⟩)
      (.command _ ((wState.setHost [.word 0x20000007#32, .write 0x1000#32 0#8]).setRsp (some ⟨.invalidInput, 0x0000#16⟩)) _
        (.append false false 0#32 0#32 0#32 0#32) rfl (.inr rfl)
        (.illegal _ ((wState.setHost [.write 0x1000#32 0#8]).setRsp (some ⟨.illegalCommand, 0x0000#16⟩)) _ .reservedVariant (by decide) rfl
          (.write _ _ _ 0x1000#32 0#8 [] rfl rfl (.done _)))))

theorem witness_RegFromTheDigest : (fresh cfgCcitt [] []).engine = some (freshEngine cfgCcitt) ∧
    exec .digest (fresh cfgCcitt [] []) = .next ((fresh cfgCcitt [] []).setRsp (some ⟨.ok, 0xFFFF#16⟩)) ∧
    ((fresh cfgCcitt [] []).setRsp (some ⟨.ok, 0xFFFF#16⟩)).rsp = some ⟨.ok, 0xFFFF#16⟩ := ⟨rfl, rfl, rfl⟩

/-- The buffers and texts of R171 to R173, and a range out of bounds. -/
theorem witness_Helpers : bytesAt (fresh cfgArc memN []).mem 0x1000#32 0 9 = checkInput ∧
    bytesAt (fresh cfgArc memS []).mem 0x2000#32 0 13 = [0x78#8, 0x78#8] ++ checkInput ++ [0x79#8, 0x79#8] ∧
    charAt (fresh cfgArc memT []).mem 0x3000#32 0 = 0x0041#16 ∧ charAt (fresh cfgArc memT []).mem 0x3000#32 1 = 0x0042#16 ∧
    (13#32).toNat < (2#32).toNat + (12#32).toNat := by decide +kernel

theorem witness_HelperOverwritesTheEngine : (∃ buf, Asm.compute .null = .compute buf) ∧
    (∃ buf off len, Asm.computer .null 1#32 2#32 = .computer buf off len) ∧ (∃ txt enc, Asm.computet .null true = .computet txt enc) :=
  ⟨⟨_, rfl⟩, ⟨_, _, _, rfl⟩, ⟨_, _, rfl⟩⟩

theorem witness_HostWriteIsSeen : Memory.wf (wState.setHost [.write 0x1000#32 0#8]).mem = true ∧
    (wState.setHost [.write 0x1000#32 0#8]).host = .write 0x1000#32 0#8 :: [] := ⟨wState_mem_wf, rfl⟩

theorem witness_BufferSpaceIsCanonical : Memory.wf memN = true ∧ Memory.wf (put 0x1000#32 [0x31#8] memN) = true ∧
    ∀ a : Addr, Memory.read memN a = Memory.read (put 0x1000#32 [0x31#8] memN) a :=
  ⟨wState_mem_wf, by decide +kernel, fun a => by rw [show put 0x1000#32 [0x31#8] memN = memN by decide +kernel]⟩

theorem witness_Idle : wState.host = [] := rfl

theorem witness_PacketCutShort : [0#32].length + 1 < packetWords 0x10000000#32 ∧
    [0#32, 0#32, 0#32].length + 1 < packetWords 0x30000000#32 ∧ ([] : List Word).length + 1 < packetWords 0x40000000#32 := by decide

end Sys2Proof.Machine
end

section
/-! ## Scope: the host's moves and what a step does with each (spec/00_scope.md R14)

One equation of `step` per kind of move at the front of the host's moves, then the framing of packets along a step. -/

namespace Sys2Proof.Machine

/-! ### The step, by the move at the front -/

/-- Idle: nothing to take (R205). -/
theorem step_of_idle {s : State} (h : s.host = []) : step s = .next s := by
  simp only [step, nextMove, hostStep, h]

/-- A reset at the front is taken (R220). -/
theorem step_of_reset {s : State} {rest : List HostMove} (h : s.host = .reset :: rest) :
    step s = .next (takeReset (s.setHost rest)) := by
  simp only [step, nextMove, hostStep, h]

/-- A write at the front is taken (R14, R61). -/
theorem step_of_write {s : State} {a : Addr} {b : Byte} {rest : List HostMove} (h : s.host = .write a b :: rest) :
    step s = .next (hostWrite (s.setHost rest) a b) := by
  simp only [step, nextMove, hostStep, h]

/-- Every command answers a next state with a response, and leaves the host's moves (R38, R194). -/
theorem exec_answers (i : Instr) (s : State) : ∃ t r, exec i s = .next t ∧ t.host = s.host ∧ t.rsp = some r := by
  rcases exec_cases i s with ⟨c, -, hx⟩ | ⟨e, q, -, -, -, hx⟩ | ⟨d, -, -, hx⟩ | ⟨st, -, -, hx⟩ <;>
    exact ⟨_, _, hx, rfl, rfl⟩

/-- A whole packet at the front, of a command or illegal, is taken and answered (R70, R82). -/
theorem step_of_packet {s : State} {w0 : Word} {ops : List Word} {rest : List HostMove}
    (hh : s.host = issueWords (w0 :: ops) rest) (hl : packetWords w0 = ops.length + 1) :
    ∃ t r, step s = .next t ∧ t.host = rest ∧ t.rsp = some r := by
  have hp : decode (leadingWords s.host) = decode (w0 :: ops) := pending_issueWords hh hl
  rw [step_of_word hh, packetStep, hp, takePacket_issueWords hh hl]
  cases hd : decode (w0 :: ops) with
  | instr i => exact exec_answers i (s.setHost rest)
  | illegal why => exact ⟨_, _, raise_eq _ _, rfl, rfl⟩
  | incomplete => exact absurd hd (decode_ne_incomplete hl.le)

/-- Words short of a packet, and then no word: the packet is cut short (R70). -/
theorem step_of_short {s : State} {w0 : Word} {ops : List Word} {rest : List HostMove}
    (hh : s.host = issueWords (w0 :: ops) rest) (hr : leadingWords rest = []) (hl : ops.length + 1 < packetWords w0) :
    step s = partialPacketStep s := by
  rw [step_of_word hh, packetStep, hh, leadingWords_issueWords, hr, List.append_nil, decode_short hl]

/-- With no move after the words of a packet cut short, the engine waits (log 7). -/
theorem step_of_short_idle {s : State} {w0 : Word} {ops : List Word}
    (hh : s.host = issueWords (w0 :: ops) []) (hl : ops.length + 1 < packetWords w0) : step s = .next s := by
  rw [step_of_short hh rfl hl]
  simp only [partialPacketStep, hh, afterWords_issueWords, afterWords]

/-- A reset after the words of a packet cut short is taken, and the words are lost (log 8). -/
theorem step_of_short_reset {s : State} {w0 : Word} {ops : List Word} {rest : List HostMove}
    (hh : s.host = issueWords (w0 :: ops) (.reset :: rest)) (hl : ops.length + 1 < packetWords w0) :
    step s = .next (takeReset (s.setHost rest)) := by
  rw [step_of_short hh rfl hl]
  simp only [partialPacketStep, hh, afterWords_issueWords, afterWords]

/-! ### The host's write -/

/-- Settles O57: the step is the host's write, which on a canonical buffer space reads back as `Memory.read_write` says. -/
theorem hostWriteIsSeen : Obligations.HostWriteIsSeen := by
  intro s a b rest hwf hh
  exact ⟨_, step_of_write hh, rfl, rfl, rfl, fun x => Memory.read_write hwf a x b⟩

/-! ### The framing of packets -/

/-- A header word with the words after it is a whole packet and the moves after it, when there are words enough. -/
theorem exists_operands_of_le {w0 : Word} {moves : List HostMove} (h : packetWords w0 ≤ (leadingWords moves).length + 1) :
    ∃ ops rest, moves = issueWords ops rest ∧ packetWords w0 = ops.length + 1 := by
  have hpos := packetWords_pos w0
  refine ⟨(leadingWords moves).take (packetWords w0 - 1),
    issueWords ((leadingWords moves).drop (packetWords w0 - 1)) (afterWords moves), ?_, ?_⟩
  · rw [issueWords, issueWords, ← List.append_assoc, ← List.map_append, List.take_append_drop, ← host_eq_words]
  · rw [List.length_take]; omega

/-- Operand words that are due keep the framing, and that many fewer are due after them. -/
theorem framedFrom_issueWords {due : Nat} {ws : List Word} (rest : List HostMove) (h : ws.length ≤ due) :
    framedFrom due (issueWords ws rest) = framedFrom (due - ws.length) rest := by
  induction ws generalizing due with
  | nil => rfl
  | cons w ws ih =>
    cases due with
    | zero => simp at h
    | succ due =>
      calc framedFrom (due + 1) (issueWords (w :: ws) rest)
          = framedFrom due (issueWords ws rest) := rfl
        _ = framedFrom (due - ws.length) rest := ih (Nat.le_of_succ_le_succ h)
        _ = framedFrom (due + 1 - (w :: ws).length) rest := by rw [List.length_cons, Nat.add_sub_add_right]

/-- After a packet's header and no more than its operand words, the words it still lacks are due. -/
theorem framedFrom_packet {w0 : Word} {ops : List Word} (rest : List HostMove) (h : ops.length + 1 ≤ packetWords w0) :
    framedFrom 0 (issueWords (w0 :: ops) rest) = framedFrom (packetWords w0 - (ops.length + 1)) rest := by
  calc framedFrom 0 (issueWords (w0 :: ops) rest)
      = framedFrom (packetWords w0 - 1) (issueWords ops rest) := rfl
    _ = framedFrom (packetWords w0 - 1 - ops.length) rest := framedFrom_issueWords rest (by omega)
    _ = framedFrom (packetWords w0 - (ops.length + 1)) rest := by rw [Nat.sub_sub, Nat.add_comm 1]

/-- A framed host never cuts a packet short by a write of the buffer space. -/
theorem framedFrom_short_write {w0 : Word} {ops : List Word} (a : Addr) (b : Byte) (rest : List HostMove)
    (h : ops.length + 1 < packetWords w0) : framedFrom 0 (issueWords (w0 :: ops) (.write a b :: rest)) = false := by
  rw [framedFrom_packet _ h.le]
  obtain ⟨k, hk⟩ := Nat.exists_eq_succ_of_ne_zero (Nat.sub_ne_zero_of_lt h)
  rw [hk, framedFrom]

/-- A whole packet: it is answered, and the moves after it are framed. -/
theorem framed_step_of_packet {s : State} {w0 : Word} {ops : List Word} {rest : List HostMove}
    (hf : s.framed = true) (hh : s.host = issueWords (w0 :: ops) rest) (hl : packetWords w0 = ops.length + 1) :
    ∃ t, step s = .next t ∧ t.framed = true := by
  obtain ⟨t, -, hstep, ht, -⟩ := step_of_packet hh hl
  refine ⟨t, hstep, ?_⟩
  rw [State.framed, hh, framedFrom_packet rest hl.ge, hl, Nat.sub_self] at hf
  rw [State.framed, ht, hf]

/-- A packet cut short: the engine waits or takes the reset, and the moves to come are framed. -/
theorem framed_step_of_short {s : State} {w0 : Word} {ops : List Word} {moves : List HostMove}
    (hf : s.framed = true) (hh : s.host = issueWords (w0 :: ops) (afterWords moves)) (hl : ops.length + 1 < packetWords w0) :
    ∃ t, step s = .next t ∧ t.framed = true := by
  cases ha : afterWords moves with
  | nil => exact ⟨s, step_of_short_idle (ha ▸ hh) hl, hf⟩
  | cons m rest =>
    rw [ha] at hh
    cases m with
    | reset =>
      refine ⟨_, step_of_short_reset hh hl, ?_⟩
      rw [State.framed, hh, framedFrom_packet _ hl.le, framedFrom] at hf
      exact hf
    | write a b =>
      rw [State.framed, hh, framedFrom_short_write a b rest hl] at hf
      exact absurd hf Bool.false_ne_true
    | word w => exact absurd ha (afterWords_not_word moves w rest)

/-- Settles O21, by the move at the front; a word begins a whole packet or one cut short. -/
theorem framedHostIsNeverRefused : Obligations.FramedHostIsNeverRefused := by
  intro s hf
  cases hh : s.host with
  | nil => exact ⟨s, step_of_idle hh, hf⟩
  | cons m moves =>
    cases m with
    | reset =>
      refine ⟨_, step_of_reset hh, ?_⟩
      rw [State.framed, hh, framedFrom] at hf
      exact hf
    | write a b =>
      refine ⟨_, step_of_write hh, ?_⟩
      rw [State.framed, hh, framedFrom] at hf
      exact hf
    | word w0 =>
      by_cases hl : packetWords w0 ≤ (leadingWords moves).length + 1
      · obtain ⟨ops, rest, rfl, hops⟩ := exists_operands_of_le hl
        exact framed_step_of_packet hf hh hops
      · have hsplit : s.host = issueWords (w0 :: leadingWords moves) (afterWords moves) :=
          hh.trans (congrArg (HostMove.word w0 :: ·) (host_eq_words moves))
        exact framed_step_of_short hf hsplit (Nat.lt_of_not_le hl)

end Sys2Proof.Machine
end

section
/-! ## State: what a command and a step leave of it (spec/10_state.md)

That no command reads the last response, how `VALID` = 0 ends the commands that need a constructed engine, what a command does to each
field, and what a step keeps of an engine; each part ends with the statements it settles. -/

namespace Sys2Proof.Machine

/-! ### The response held in the state -/

/-- `lastOk` reads the status of the response held. -/
@[simp] theorem State.setRsp_lastOk (s : State) (r : Response) : (s.setRsp (some r)).lastOk = (r.status == .ok) := rfl

@[simp] theorem respond_setRsp (s : State) (x : Option Response) (d : Half) : respond (s.setRsp x) d = respond s d := rfl

@[simp] theorem raise_setRsp (s : State) (x : Option Response) (st : Status) : raise (s.setRsp x) st = raise s st := rfl

@[simp] theorem construct_setRsp (s : State) (x : Option Response) (c : Cfg) : construct c (s.setRsp x) = construct c s := rfl

@[simp] theorem commitReg_setRsp (s : State) (x : Option Response) (e : Engine) (r : Half) :
    commitReg (s.setRsp x) e r = commitReg s e r := rfl

/-- No command reads the response of an earlier one (R22, R39). -/
@[simp] theorem exec_setRsp (i : Instr) (s : State) (x : Option Response) : exec i (s.setRsp x) = exec i s := by
  cases i with
  | append p r base buflen offset length => simp [exec, execAppend]
  | appendt p enc base nchars => simp [exec, execAppendt]
  | digest => simp [exec, execDigest]
  | rev8 v => exact respond_setRsp s x _
  | rev16 v => exact respond_setRsp s x _
  | _ => exact construct_setRsp s x _

/-- A packet that is whole does the same whatever response is held (R39). -/
theorem packetStep_setRsp {s : State} (x : Option Response) (h : s.pending ≠ .incomplete) :
    packetStep (s.setRsp x) = packetStep s := by
  have htake : takePacket (s.setRsp x) = (takePacket s).setRsp x := rfl
  unfold packetStep
  rw [htake, State.setRsp_host]
  cases hd : decode (leadingWords s.host) with
  | instr i => exact exec_setRsp i (takePacket s) x
  | illegal why => exact raise_setRsp (takePacket s) x .illegalCommand
  | incomplete => exact absurd hd h

/-- Settles O15: no command reads the response, and a whole packet is a command or is answered whatever is held. -/
theorem noCommandReadsTheLastResponse : Obligations.NoCommandReadsTheLastResponse := by
  refine ⟨exec_setRsp, fun s w0 ops rest x hh hl => ?_⟩
  have hwhole : s.pending ≠ .incomplete := by
    rw [pending_issueWords hh hl]
    exact decode_ne_incomplete hl.le
  calc step (s.setRsp x)
      = packetStep (s.setRsp x) := step_of_word hh
    _ = packetStep s := packetStep_setRsp x hwhole
    _ = step s := (step_of_word hh).symm

/-! ### What a command answers -/

/-- The next state of a command, by what the command did: `exec_cases` of a command known to answer `t`. -/
theorem exec_next_cases {i : Instr} {s t : State} (h : exec i s = .next t) :
    (∃ c, constructs i = true ∧ t = (s.setEngine (some (freshEngine c))).setRsp (some ⟨.ok, 0#16⟩)) ∨
    (∃ e q, constructs i = false ∧ appends i = true ∧ s.engine = some e ∧
      t = (s.setEngine (some (e.setReg q))).setRsp (some ⟨.ok, 0#16⟩)) ∨
    (∃ d, constructs i = false ∧ appends i = false ∧ t = s.setRsp (some ⟨.ok, d⟩)) ∨
    (∃ st, constructs i = false ∧ st ≠ .ok ∧ t = s.setRsp (some ⟨st, 0#16⟩)) := by
  simpa only [h, Host.Outcome.next.injEq] using exec_cases i s

/-! ### `VALID` -/

/-- `APPEND` raises `IllegalCommand` while `VALID` = 0 (R30). -/
theorem exec_append_of_not_valid {s : State} (p r : Bool) (base buflen offset length : Word) (h : s.valid = false) :
    exec (.append p r base buflen offset length) s = .next (s.setRsp (some ⟨.illegalCommand, 0#16⟩)) := by
  simp [exec, execAppend, s.valid_eq_false_iff.mp h, raise_eq]

/-- `APPENDT` raises `IllegalCommand` while `VALID` = 0 (R30). -/
theorem exec_appendt_of_not_valid {s : State} (p enc : Bool) (base nchars : Word) (h : s.valid = false) :
    exec (.appendt p enc base nchars) s = .next (s.setRsp (some ⟨.illegalCommand, 0#16⟩)) := by
  simp [exec, execAppendt, s.valid_eq_false_iff.mp h, raise_eq]

/-- `DIGEST` raises `IllegalCommand` while `VALID` = 0 (R30). -/
theorem exec_digest_of_not_valid {s : State} (h : s.valid = false) :
    exec .digest s = .next (s.setRsp (some ⟨.illegalCommand, 0#16⟩)) := by
  simp [exec, execDigest, s.valid_eq_false_iff.mp h, raise_eq]

/-- After a command `VALID` is 1 when it was or when the command is a construction (R30, R31). -/
theorem exec_valid {i : Instr} {s t : State} (h : exec i s = .next t) : t.valid = (s.valid || constructs i) := by
  rcases exec_next_cases h with ⟨c, hc, rfl⟩ | ⟨e, q, hc, -, he, rfl⟩ | ⟨d, hc, -, rfl⟩ | ⟨st, hc, -, rfl⟩
  · simp [hc]
  · simp [hc, State.valid, he]
  · simp [hc]
  · simp [hc]

/-- Taking a packet leaves `VALID`. -/
@[simp] theorem takePacket_valid (s : State) : (takePacket s).valid = s.valid := rfl

/-- A step that clears `VALID` takes a reset, with at most four words of an abandoned packet before it (R30, R220; log 8). -/
theorem reset_of_step_clears_valid {s t : State} (h : step s = .next t) (hs : s.valid = true) (ht : t.valid = false) :
    ∃ k, k < 5 ∧ s.host[k]? = some .reset ∧ t.host = s.host.drop (k + 1) := by
  have keeps : t.valid ≠ s.valid := by simp [hs, ht]
  rcases step_cases h with ⟨i, -, hx⟩ | ⟨why, -, rfl⟩ | ⟨k, hk, hat, rfl⟩ | ⟨a, b, rest, -, rfl⟩ | rfl
  · have hv := exec_valid hx
    simp [hs, ht] at hv
  · exact absurd rfl keeps
  · exact ⟨k, hk, hat, rfl⟩
  · exact absurd rfl keeps
  · exact absurd rfl keeps

/-- Settles O18: commands by `exec_valid`, steps by `step_of_reset` and `reset_of_step_clears_valid`. -/
theorem validIsSetByConstructionAndClearedByReset : Obligations.ValidIsSetByConstructionAndClearedByReset := by
  refine ⟨fun i s t => exec_valid, fun s rest hh => ⟨_, step_of_reset hh, rfl⟩,
    fun s t => reset_of_step_clears_valid, fun s p q w1 w2 w3 w4 hv => ?_⟩
  exact ⟨exec_append_of_not_valid p q w1 w2 w3 w4 hv, exec_appendt_of_not_valid p q w1 w2 hv, exec_digest_of_not_valid hv⟩

/-! ### The frame of a command, and the engine along a step -/

/-- No command writes the buffer space or the host's moves (R38, R51). -/
theorem exec_keeps_mem_host {i : Instr} {s t : State} (h : exec i s = .next t) : t.mem = s.mem ∧ t.host = s.host := by
  rcases exec_next_cases h with ⟨c, -, rfl⟩ | ⟨e, q, -, -, -, rfl⟩ | ⟨d, -, -, rfl⟩ | ⟨st, -, -, rfl⟩ <;>
    exact ⟨rfl, rfl⟩

/-- A command that constructs nothing leaves the engine, or is an append that ends `OK` and writes its `REG` alone (R35, R36). -/
theorem exec_engine_cases {i : Instr} {s t : State} (hc : constructs i = false) (h : exec i s = .next t) :
    t.engine = s.engine ∨
    (appends i = true ∧ t.lastOk = true ∧ ∃ e q, s.engine = some e ∧ t.engine = some (e.setReg q)) := by
  rcases exec_next_cases h with ⟨c, hc', -⟩ | ⟨e, q, -, ha, he, rfl⟩ | ⟨d, -, -, rfl⟩ | ⟨st, -, -, rfl⟩
  · simp [hc] at hc'
  · exact .inr ⟨ha, rfl, e, q, he, rfl⟩
  · exact .inl rfl
  · exact .inl rfl

/-- A command that is neither a construction nor an append leaves the whole engine (R36, R38). -/
theorem exec_keeps_engine {i : Instr} {s t : State} (hc : constructs i = false) (ha : appends i = false)
    (h : exec i s = .next t) : t.engine = s.engine := by
  rcases exec_engine_cases hc h with heq | ⟨ha', -⟩
  · exact heq
  · simp [ha] at ha'

/-- A command that raises leaves the engine (R36, R131). -/
theorem exec_keeps_engine_of_raised {i : Instr} {s t : State} (h : exec i s = .next t) (hr : t.lastOk = false) :
    t.engine = s.engine := by
  rcases exec_next_cases h with ⟨c, -, rfl⟩ | ⟨e, q, -, -, -, rfl⟩ | ⟨d, -, -, rfl⟩ | ⟨st, -, -, rfl⟩
  · simp at hr
  · simp at hr
  · rfl
  · rfl

/-- A step from a constructed engine to a constructed engine, its packet no construction, writes at most `REG`, and that only by an
append that ends `OK` (R35, R36). -/
theorem step_keeps_instance {s t : State} {e e' : Engine} (h : step s = .next t) (he : s.engine = some e)
    (he' : t.engine = some e') (hp : ∀ i, s.pending = .instr i → constructs i = false) :
    e' = e ∨ ((∃ i, s.pending = .instr i ∧ appends i = true ∧ t.lastOk = true) ∧ ∃ q, e' = e.setReg q) := by
  have same (heq : t.engine = s.engine) : e' = e := Option.some.inj (he'.symm.trans (heq.trans he))
  rcases step_cases h with ⟨i, hi, hx⟩ | ⟨why, -, rfl⟩ | ⟨k, -, -, rfl⟩ | ⟨a, b, rest, -, rfl⟩ | rfl
  · rcases exec_engine_cases (hp i hi) hx with heq | ⟨ha, hok, e₀, q, he₀, ht⟩
    · exact .inl (same heq)
    · cases he.symm.trans he₀
      exact .inr ⟨⟨i, hi, ha, hok⟩, q, Option.some.inj (he'.symm.trans ht)⟩
  · exact .inl (same rfl)
  · cases he'
  · exact .inl (same rfl)
  · exact .inl (same rfl)

/-- Settles O22: what a step may write of the engine is `REG`. -/
theorem instanceKeepsTableAndCfg : Obligations.InstanceKeepsTableAndCfg := by
  intro s t e e' h he he' hp
  rcases step_keeps_instance h he he' hp with rfl | ⟨-, q, rfl⟩ <;> exact ⟨rfl, rfl⟩

/-- Settles O23: a changed `REG` is the second case of `step_keeps_instance`. -/
theorem regChangesOnlyByAppendsThatEndOk : Obligations.RegChangesOnlyByAppendsThatEndOk := by
  refine ⟨fun s t e e' h he he' hp hreg => ?_, fun i s t => exec_keeps_engine_of_raised, fun s t v w h => ?_⟩
  · rcases step_keeps_instance h he he' hp with rfl | ⟨happend, -⟩
    · exact absurd rfl hreg
    · exact happend
  · rcases h with h | h | h <;> exact exec_keeps_engine rfl rfl h

/-- Settles O24: an append that ends `OK` keeps `CFG` and `TABLE` under `setReg`, and no other such command touches the engine. -/
theorem frameOfEveryCommand : Obligations.FrameOfEveryCommand := by
  intro i s t h
  obtain ⟨hmem, hhost⟩ := exec_keeps_mem_host h
  refine ⟨fun a => by rw [hmem], hmem, hhost, fun hc => ?_, fun hc ha => exec_keeps_engine hc ha h, ?_⟩
  · rcases exec_engine_cases hc h with heq | ⟨-, -, e, q, he, ht⟩
    · simp [State.valid, heq]
    · simp [State.valid, he, ht]
  · obtain ⟨t', r, hx, -, hr⟩ := exec_answers i s
    cases h.symm.trans hx
    simp [hr]

/-! ### `DIGEST` -/

/-- On a constructed engine `DIGEST` responds with the digest (R151). -/
theorem exec_digest_of_engine {s : State} {e : Engine} (he : s.engine = some e) :
    exec .digest s = .next (s.setRsp (some ⟨.ok, digestOf e⟩)) := by
  simp [exec, execDigest, he, respond_eq]

/-- The digest is `REG`, reversed when `REFOUT` = 0, combined with `XOROUT` (R150). -/
theorem digestOf_eq (e : Engine) : digestOf e = (if e.cfg.refout = true then e.reg else rev16 e.reg) ^^^ e.cfg.xorout := by
  unfold digestOf
  split <;> rfl

/-- `DIGEST` changes the response alone (R37). -/
theorem exec_digest_pure (s : State) : ∃ r, exec .digest s = .next (s.setRsp (some r)) := by
  cases he : s.engine with
  | none => exact ⟨_, exec_digest_of_not_valid (s.valid_eq_false_iff.mpr he)⟩
  | some e => exact ⟨_, exec_digest_of_engine he⟩

/-- Settles O49: the second `DIGEST` does not read the response of the first. -/
theorem digestChangesNoState : Obligations.DigestChangesNoState := by
  intro s
  obtain ⟨r, hr⟩ := exec_digest_pure s
  refine ⟨r, hr, (exec_setRsp .digest s (some r)).trans hr, fun e he => ?_⟩
  have hnext : s.setRsp (some r) = s.setRsp (some ⟨.ok, digestOf e⟩) :=
    Host.Outcome.next.inj (hr.symm.trans (exec_digest_of_engine he))
  have hrsp : r = ⟨.ok, digestOf e⟩ := Option.some.inj (congrArg State.rsp hnext)
  rw [hrsp, digestOf_eq]

/-! ### Reset -/

/-- The ROM's entry `b` is `b` with its bits in the opposite order (R140, R141). -/
theorem entry_rev8Rom_getLsbD (b : Byte) (k : Nat) (hk : k < 8) : (entry rev8Rom b).getLsbD k = b.getLsbD (7 - k) := by
  revert b k
  decide +kernel

/-- A command that sets `VALID` writes `CFG`, `TABLE` and `REG` whole (R31, R42, R104). -/
theorem exec_sets_valid {i : Instr} {s t : State} (hs : s.valid = false) (h : exec i s = .next t) (ht : t.valid = true) :
    ∃ c, t.engine = some (freshEngine c) := by
  rcases exec_next_cases h with ⟨c, -, rfl⟩ | ⟨e, q, -, -, he, -⟩ | ⟨d, -, -, rfl⟩ | ⟨st, -, -, rfl⟩
  · exact ⟨c, rfl⟩
  · simp [State.valid, he] at hs
  · simp [hs] at ht
  · simp [hs] at ht

/-- Settles O16: with no engine only a construction answers with one. -/
theorem resetLeavesNoInstance : Obligations.ResetLeavesNoInstance := by
  refine ⟨rfl, rfl, rfl, entry_rev8Rom_getLsbD, fun s p q w1 w2 w3 w4 hv => ?_, fun s t i => exec_sets_valid⟩
  exact ⟨exec_append_of_not_valid p q w1 w2 w3 w4 hv, exec_appendt_of_not_valid p q w1 w2 hv, exec_digest_of_not_valid hv⟩

/-- Settles O20: the buffer space and the host's moves are empty, and there is no engine. -/
theorem invariantHoldsAtReset : Obligations.InvariantHoldsAtReset := ⟨⟨Memory.wf_nil, rfl⟩, rfl⟩

end Sys2Proof.Machine
end

section
/-! ## Memory: the buffer space, who writes it and what a command reads of it (spec/20_memory.md)

The invariant of the buffer space and the table along a step, that a canonical list is its bytes, then the bytes and characters the two
appends fold and that no command reads others; each part ends with the statements it settles. -/

namespace Sys2Proof.Machine

/-! ### The invariant along a step -/

/-- `tableCoherent` says of the engine, where there is one, that its table is that of its polynomial (R64). -/
theorem tableCoherent_iff (s : State) :
    tableCoherent s = true ↔ ∀ e, s.engine = some e → e.table = tableBuild e.cfg.poly := by
  cases he : s.engine <;> simp [tableCoherent, he]

/-- Two states with the same buffer space and the same engine have the invariant together. -/
theorem State.Inv.congr {s t : State} (hs : s.Inv) (hmem : t.mem = s.mem) (heng : t.engine = s.engine) : t.Inv := by
  obtain ⟨hwf, htab⟩ := hs
  rw [tableCoherent_iff] at htab
  exact ⟨hmem ▸ hwf, (tableCoherent_iff t).mpr (heng ▸ htab)⟩

/-- No engine, no table: the invariant is the canonical form alone (R64). -/
theorem State.Inv.of_not_valid {s : State} (hwf : Memory.wf s.mem = true) (hv : s.valid = false) : s.Inv := by
  refine ⟨hwf, (tableCoherent_iff s).mpr fun e he => ?_⟩
  simp [State.valid, he] at hv

/-- A command keeps `TABLE` = `TableBuild(CFG.POLY)`: a construction builds it, an append leaves `CFG` and `TABLE` (R35, R64, R104). -/
theorem exec_keeps_tableCoherent {i : Instr} {s t : State} (h : exec i s = .next t) (hs : tableCoherent s = true) :
    tableCoherent t = true := by
  rw [tableCoherent_iff] at hs ⊢
  rcases exec_next_cases h with ⟨c, -, rfl⟩ | ⟨e, q, -, -, he, rfl⟩ | ⟨d, -, -, rfl⟩ | ⟨st, -, -, rfl⟩
  · rintro _ ⟨rfl⟩
    exact freshEngine_table c
  · rintro _ ⟨rfl⟩
    exact hs e he
  · exact hs
  · exact hs

/-- A command keeps the invariant. -/
theorem exec_keeps_inv {i : Instr} {s t : State} (h : exec i s = .next t) (hs : s.Inv) : t.Inv := by
  obtain ⟨hwf, htab⟩ := hs
  obtain ⟨hmem, -⟩ := exec_keeps_mem_host h
  exact ⟨hmem ▸ hwf, exec_keeps_tableCoherent h htab⟩

/-- Settles O19, by what the step took: only a command can touch the engine's table, and only the host's write the buffer space. -/
theorem everyStepKeepsTheInvariant : Obligations.EveryStepKeepsTheInvariant := by
  intro s t hs h
  rcases step_cases h with ⟨i, -, hx⟩ | ⟨why, -, rfl⟩ | ⟨k, -, -, rfl⟩ | ⟨a, b, rest, -, rfl⟩ | rfl
  · exact exec_keeps_inv hx (State.Inv.congr hs rfl rfl)
  · exact State.Inv.congr hs rfl rfl
  · obtain ⟨hwf, -⟩ := hs
    exact State.Inv.of_not_valid hwf rfl
  · obtain ⟨hwf, htab⟩ := hs
    exact ⟨Memory.write_wf hwf a b, htab⟩
  · exact hs

/-- A step that takes no write from the host leaves the buffer space (R50, R51; log 1 for a reset). -/
theorem step_keeps_mem {s t : State} (h : step s = .next t) (hw : ∀ a b rest, s.host ≠ .write a b :: rest) : t.mem = s.mem := by
  rcases step_cases h with ⟨i, -, hx⟩ | ⟨why, -, rfl⟩ | ⟨k, -, -, rfl⟩ | ⟨a, b, rest, hh, -⟩ | rfl
  · exact (exec_keeps_mem_host hx).1
  · rfl
  · rfl
  · exact absurd hh (hw a b rest)
  · rfl

/-- Settles O25: the list is left, and so every byte. -/
theorem onlyTheHostWritesTheBufferSpace : Obligations.OnlyTheHostWritesTheBufferSpace := by
  intro s t h hw
  have hmem := step_keeps_mem h hw
  exact ⟨hmem, fun a => by rw [hmem]⟩

/-! ### A canonical list is its bytes -/

/-- The canonical form of a list with a first entry. -/
theorem Memory.wfFrom_cons_iff {lo k : Nat} {b : Byte} {m : List Host.Cell} :
    Memory.wfFrom lo ((k, b) :: m) = true ↔
      lo ≤ k ∧ k < 2 ^ 32 ∧ b ≠ Memory.unlisted ∧ Memory.wfFrom (k + 1) m = true := by
  simp only [Memory.wfFrom, Bool.and_eq_true, decide_eq_true_eq, bne_iff_ne, and_assoc]

/-- The byte of the first entry. -/
theorem Memory.lookup_cons_self (k : Nat) (b : Byte) (m : List Host.Cell) : Memory.lookup ((k, b) :: m) k = b := by
  simp [Memory.lookup]

/-- Past the first entry a read is one of the rest. -/
theorem Memory.lookup_cons_of_ne {k a : Nat} (b : Byte) (m : List Host.Cell) (h : k ≠ a) :
    Memory.lookup ((k, b) :: m) a = Memory.lookup m a := by
  simp [Memory.lookup, h]

/-- A list whose first entry is at `k` reads there as no canonical list above `k` does. -/
theorem Memory.lookup_first_ne {k : Nat} {b : Byte} {m m' : List Host.Cell} (hb : b ≠ Memory.unlisted)
    (h' : Memory.wfFrom (k + 1) m' = true) : Memory.lookup ((k, b) :: m) k ≠ Memory.lookup m' k := by
  rwa [Memory.lookup_cons_self, Memory.lookup_below h' k.lt_succ_self]

/-- Two canonical lists that read the same at every address are the same list: their first entries stand at the same address, as the
lower one would read as listed in one list only. -/
theorem Memory.ext_of_wfFrom {lo lo' : Nat} {m m' : List Host.Cell} (h : Memory.wfFrom lo m = true)
    (h' : Memory.wfFrom lo' m' = true) (hread : ∀ a, a < 2 ^ 32 → Memory.lookup m a = Memory.lookup m' a) : m = m' := by
  induction m generalizing lo lo' m' with
  | nil =>
    cases m' with
    | nil => rfl
    | cons c' m' =>
      obtain ⟨-, hk', hb', -⟩ := Memory.wfFrom_cons_iff.mp h'
      exact absurd (hread c'.1 hk').symm (Memory.lookup_first_ne (m' := []) hb' rfl)
  | cons c m ih =>
    obtain ⟨k, b⟩ := c
    obtain ⟨-, hk, hb, hm⟩ := Memory.wfFrom_cons_iff.mp h
    cases m' with
    | nil => exact absurd (hread k hk) (Memory.lookup_first_ne (m' := []) hb rfl)
    | cons c' m' =>
      obtain ⟨k', b'⟩ := c'
      obtain ⟨-, hk', hb', hm'⟩ := Memory.wfFrom_cons_iff.mp h'
      rcases lt_trichotomy k k' with hlt | rfl | hlt
      · exact absurd (hread k hk) (Memory.lookup_first_ne hb (Memory.wfFrom_cons_iff.mpr ⟨hlt, hk', hb', hm'⟩))
      · have hbyte : b = b' := by simpa only [Memory.lookup_cons_self] using hread k hk
        have hrest : ∀ a, a < 2 ^ 32 → Memory.lookup m a = Memory.lookup m' a := by
          intro a ha
          by_cases hka : k = a
          · subst hka
            rw [Memory.lookup_below hm k.lt_succ_self, Memory.lookup_below hm' k.lt_succ_self]
          · simpa only [Memory.lookup_cons_of_ne _ _ hka] using hread a ha
        rw [hbyte, ih hm hm' hrest]
      · exact absurd (hread k' hk').symm (Memory.lookup_first_ne hb' (Memory.wfFrom_cons_iff.mpr ⟨hlt, hk, hb, hm⟩))

/-- Settles O58: every address below 2^32 is an `Addr`. -/
theorem bufferSpaceIsCanonical : Obligations.BufferSpaceIsCanonical := by
  intro m m' h h' hread
  refine Memory.ext_of_wfFrom h h' fun a ha => ?_
  simpa only [Memory.read, BitVec.toNat_ofNat, Nat.mod_eq_of_lt ha] using hread (BitVec.ofNat 32 a)

/-! ### The bytes and the characters an append folds -/

/-- The first byte of a buffer is at its base. -/
@[simp] theorem bufferAddr_zero (base : Addr) : bufferAddr base 0 = base := BitVec.add_zero base

/-- Going on by `k` bytes from byte `off` of a buffer, modulo 2^32 (R52). -/
theorem bufferAddr_add (base : Addr) (off k : Nat) : bufferAddr base off + BitVec.ofNat 32 k = bufferAddr base (off + k) := by
  rw [bufferAddr, bufferAddr, BitVec.add_assoc, BitVec.ofNat_add]

/-- The first of `n` + 1 bytes, and the `n` after it. -/
theorem bytesAt_succ (m : List Host.Cell) (base : Addr) (off n : Nat) :
    bytesAt m base off (n + 1) = Memory.read m (bufferAddr base off) :: bytesAt m base (off + 1) n := by
  simp [bytesAt, List.range_succ_eq_map, Function.comp_def, Nat.add_assoc, Nat.add_comm 1]

/-- Two buffer spaces that agree on a buffer hold the same bytes there. -/
theorem bytesAt_congr {m m' : List Host.Cell} {base : Addr} {off n : Nat}
    (h : ∀ k, k < n → Memory.read m (bufferAddr base (off + k)) = Memory.read m' (bufferAddr base (off + k))) :
    bytesAt m base off n = bytesAt m' base off n :=
  List.map_congr_left fun k hk => h k (List.mem_range.mp hk)

/-- The loop of `APPEND` folds the bytes of the sub-range in ascending order (R54, R124). -/
theorem foldBytes_eq_foldl (e : Engine) (m : List Host.Cell) (base : Addr) (off n : Nat) (r : Half) :
    foldBytes e m n (bufferAddr base off) r = (bytesAt m base off n).foldl (fold e) r := by
  induction n generalizing off r with
  | zero => rfl
  | succ n ih =>
    rw [foldBytes, bufferAddr_add base off 1, ih, bytesAt_succ, List.foldl_cons]

/-- The loop of `APPENDT` folds the characters in order, each at its two addresses (R53, R54, R125). -/
theorem foldChars_eq_foldl (e : Engine) (m : List Host.Cell) (enc : Bool) (base : Addr) (off n : Nat) (r : Half) :
    foldChars e m enc n (bufferAddr base off) r = (List.range n).foldl (fun q k => foldChar e enc q
      (Memory.read m (bufferAddr base (off + 2 * k))) (Memory.read m (bufferAddr base (off + 2 * k + 1)))) r := by
  induction n generalizing off r with
  | zero => rfl
  | succ n ih =>
    have hnext : ∀ k, off + 2 + 2 * k = off + 2 * (k + 1) := fun k => by omega
    simp only [foldChars, bufferAddr_add base off 1, bufferAddr_add base off 2, ih, hnext,
      List.range_succ_eq_map, List.foldl_cons, List.foldl_map, Nat.mul_zero, Nat.add_zero, Nat.succ_eq_add_one]

/-- Two buffer spaces that agree on the two bytes of each character fold alike (R54). -/
theorem foldChars_congr (e : Engine) {m m' : List Host.Cell} (enc : Bool) {base : Addr} {n : Nat} (r : Half)
    (h : ∀ j, j < 2 * n → Memory.read m (bufferAddr base j) = Memory.read m' (bufferAddr base j)) :
    foldChars e m enc n base r = foldChars e m' enc n base r := by
  rw [← bufferAddr_zero base, foldChars_eq_foldl, foldChars_eq_foldl]
  refine List.foldl_ext _ _ _ fun q k hk => ?_
  have hk := List.mem_range.mp hk
  rw [h (0 + 2 * k) (by omega), h (0 + 2 * k + 1) (by omega)]

/-! ### How the appends end on a constructed engine -/

/-- `APPEND` with no buffer raises `InvalidInput` (R124). -/
theorem exec_append_of_null {s : State} {e : Engine} (r : Bool) (base buflen offset length : Word) (he : s.engine = some e) :
    exec (.append false r base buflen offset length) s = .next (s.setRsp (some ⟨.invalidInput, 0#16⟩)) := by
  simp [exec, execAppend, he, raise_eq]

/-- `APPEND` of a sub-range out of bounds raises `RangeError` (R123, R124). -/
theorem exec_append_of_outOfBounds {s : State} {e : Engine} {r : Bool} (base : Word) {buflen offset length : Word}
    (he : s.engine = some e) (hb : inBounds (effectiveRange r buflen offset length) buflen = false) :
    exec (.append true r base buflen offset length) s = .next (s.setRsp (some ⟨.rangeError, 0#16⟩)) := by
  simp [exec, execAppend, he, hb, raise_eq]

/-- `APPEND` of a sub-range in bounds folds its bytes into `REG` (R122, R124). -/
theorem exec_append_of_inBounds {s : State} {e : Engine} {r : Bool} (base : Word) {buflen offset length : Word}
    (he : s.engine = some e) (hb : inBounds (effectiveRange r buflen offset length) buflen = true) :
    exec (.append true r base buflen offset length) s = .next ((s.setEngine (some (e.setReg
      ((bytesAt s.mem base (effectiveRange r buflen offset length).1 (effectiveRange r buflen offset length).2).foldl
        (fold e) e.reg)))).setRsp (some ⟨.ok, 0#16⟩)) := by
  simp [exec, execAppend, he, hb, commitReg_eq, foldBytes_eq_foldl]

/-- `APPENDT` with no text raises `InvalidInput` (R125). -/
theorem exec_appendt_of_null {s : State} {e : Engine} (enc : Bool) (base nchars : Word) (he : s.engine = some e) :
    exec (.appendt false enc base nchars) s = .next (s.setRsp (some ⟨.invalidInput, 0#16⟩)) := by
  simp [exec, execAppendt, he, raise_eq]

/-- `APPENDT` of a text folds its characters into `REG` (R125). -/
theorem exec_appendt_of_text {s : State} {e : Engine} (enc : Bool) (base nchars : Word) (he : s.engine = some e) :
    exec (.appendt true enc base nchars) s = .next ((s.setEngine (some (e.setReg
      (foldChars e s.mem enc nchars.toNat base e.reg)))).setRsp (some ⟨.ok, 0#16⟩)) := by
  simp [exec, execAppendt, he, commitReg_eq]

/-- Settles O39: the sub-range named is the effective one, and its bytes are read through `bytesAt`. -/
theorem appendFoldsTheSubrange : Obligations.AppendFoldsTheSubrange := by
  intro s e r base buflen offset length off len he hrange hle
  change (off, len) = effectiveRange r buflen offset length at hrange
  have hb : inBounds (effectiveRange r buflen offset length) buflen = true := by
    rwa [inBounds_iff, ← hrange]
  rw [exec_append_of_inBounds base he hb, ← hrange, bytesAt, List.foldl_map]
  rfl

/-- Settles O41: the loop from byte 0 of the text, its body by the mode. -/
theorem appendtFoldsTheCharacters : Obligations.AppendtFoldsTheCharacters := by
  intro s e enc base nchars he
  have hloop := foldChars_eq_foldl e s.mem enc base 0 nchars.toNat e.reg
  rw [bufferAddr_zero] at hloop
  simp only [exec_appendt_of_text enc base nchars he, hloop, Nat.zero_add, foldChar, bufferAddr]

/-! ### What a command reads of the buffer space -/

/-- `APPEND` whatever the buffer space holds: it raises the same error over every buffer space, or folds the bytes each holds in the
sub-range (R54, R124). -/
theorem exec_append_setMem_cases (p r : Bool) (base buflen offset length : Word) (s : State) :
    (∃ st, st ≠ .ok ∧ ∀ m, exec (.append p r base buflen offset length) (s.setMem m) =
      .next ((s.setMem m).setRsp (some ⟨st, 0#16⟩))) ∨
    (∃ e : Engine, ∀ m, exec (.append p r base buflen offset length) (s.setMem m) = .next (((s.setMem m).setEngine (some (e.setReg
      ((bytesAt m base (effectiveRange r buflen offset length).1 (effectiveRange r buflen offset length).2).foldl
        (fold e) e.reg)))).setRsp (some ⟨.ok, 0#16⟩))) := by
  cases he : s.engine with
  | none =>
    have hv : s.valid = false := s.valid_eq_false_iff.mpr he
    exact .inl ⟨.illegalCommand, by decide, fun m => exec_append_of_not_valid p r base buflen offset length hv⟩
  | some e =>
    cases p with
    | false => exact .inl ⟨.invalidInput, by decide, fun m => exec_append_of_null r base buflen offset length he⟩
    | true =>
      cases hb : inBounds (effectiveRange r buflen offset length) buflen with
      | false => exact .inl ⟨.rangeError, by decide, fun m => exec_append_of_outOfBounds base he hb⟩
      | true => exact .inr ⟨e, fun m => exec_append_of_inBounds base he hb⟩

/-- `APPENDT` whatever the buffer space holds: it raises the same error over every buffer space, or folds the characters each holds in
the text (R54, R125). -/
theorem exec_appendt_setMem_cases (p enc : Bool) (base nchars : Word) (s : State) :
    (∃ st, st ≠ .ok ∧ ∀ m, exec (.appendt p enc base nchars) (s.setMem m) =
      .next ((s.setMem m).setRsp (some ⟨st, 0#16⟩))) ∨
    (∃ e : Engine, ∀ m, exec (.appendt p enc base nchars) (s.setMem m) = .next (((s.setMem m).setEngine (some (e.setReg
      (foldChars e m enc nchars.toNat base e.reg)))).setRsp (some ⟨.ok, 0#16⟩))) := by
  cases he : s.engine with
  | none =>
    have hv : s.valid = false := s.valid_eq_false_iff.mpr he
    exact .inl ⟨.illegalCommand, by decide, fun m => exec_appendt_of_not_valid p enc base nchars hv⟩
  | some e =>
    cases p with
    | false => exact .inl ⟨.invalidInput, by decide, fun m => exec_appendt_of_null enc base nchars he⟩
    | true => exact .inr ⟨e, fun m => exec_appendt_of_text enc base nchars he⟩

/-- `APPEND` reads the bytes of its sub-range alone. -/
theorem exec_append_setMem (s : State) {m : List Host.Cell} (p : Bool) {r : Bool} {base buflen offset length : Word}
    (h : ∀ k, k < (effectiveRange r buflen offset length).2 →
      Memory.read m (bufferAddr base ((effectiveRange r buflen offset length).1 + k)) =
        Memory.read s.mem (bufferAddr base ((effectiveRange r buflen offset length).1 + k))) :
    ∃ t, exec (.append p r base buflen offset length) s = .next t ∧
      exec (.append p r base buflen offset length) (s.setMem m) = .next (t.setMem m) := by
  rcases exec_append_setMem_cases p r base buflen offset length s with ⟨st, -, hx⟩ | ⟨e, hx⟩
  · exact ⟨_, hx s.mem, hx m⟩
  · refine ⟨_, hx s.mem, (hx m).trans ?_⟩
    rw [bytesAt_congr h]
    rfl

/-- `APPENDT` reads the two bytes of each of its characters alone. -/
theorem exec_appendt_setMem (s : State) {m : List Host.Cell} (p enc : Bool) {base nchars : Word}
    (h : ∀ j, j < 2 * nchars.toNat → Memory.read m (bufferAddr base j) = Memory.read s.mem (bufferAddr base j)) :
    ∃ t, exec (.appendt p enc base nchars) s = .next t ∧ exec (.appendt p enc base nchars) (s.setMem m) = .next (t.setMem m) := by
  rcases exec_appendt_setMem_cases p enc base nchars s with ⟨st, -, hx⟩ | ⟨e, hx⟩
  · exact ⟨_, hx s.mem, hx m⟩
  · refine ⟨_, hx s.mem, (hx m).trans ?_⟩
    rw [foldChars_congr e enc e.reg h]
    rfl

/-- A command that is no append reads no byte of the buffer space. -/
theorem exec_setMem_of_not_appends {i : Instr} (s : State) (m : List Host.Cell) (ha : appends i = false) :
    ∃ t, exec i s = .next t ∧ exec i (s.setMem m) = .next (t.setMem m) := by
  cases i with
  | append p r base buflen offset length => cases ha
  | appendt p enc base nchars => cases ha
  | digest =>
    cases he : s.engine with
    | none =>
      have hv : s.valid = false := s.valid_eq_false_iff.mpr he
      exact ⟨_, exec_digest_of_not_valid hv, exec_digest_of_not_valid (s := s.setMem m) hv⟩
    | some e => exact ⟨_, exec_digest_of_engine he, exec_digest_of_engine (s := s.setMem m) he⟩
  | _ => exact ⟨_, rfl, rfl⟩

/-- An append that raises, raises the same over every buffer space: the checks come before the first read (R54). -/
theorem exec_setMem_of_appends_raised {i : Instr} {s t : State} (m : List Host.Cell) (ha : appends i = true)
    (h : exec i s = .next t) (hr : t.lastOk = false) : exec i (s.setMem m) = .next (t.setMem m) := by
  have hcases : (∃ st, st ≠ .ok ∧ ∀ m, exec i (s.setMem m) = .next ((s.setMem m).setRsp (some ⟨st, 0#16⟩))) ∨
      (∃ u, exec i (s.setMem s.mem) = .next u ∧ u.lastOk = true) := by
    cases i with
    | append p r base buflen offset length =>
      exact (exec_append_setMem_cases p r base buflen offset length s).imp_right fun ⟨e, hx⟩ => ⟨_, hx s.mem, rfl⟩
    | appendt p enc base nchars =>
      exact (exec_appendt_setMem_cases p enc base nchars s).imp_right fun ⟨e, hx⟩ => ⟨_, hx s.mem, rfl⟩
    | _ => cases ha
  rcases hcases with ⟨st, -, hx⟩ | ⟨u, hx, hok⟩
  · cases h.symm.trans (hx s.mem)
    exact hx m
  · cases h.symm.trans hx
    simp [hr] at hok

/-- Settles O47: a command that raises is no append, and reads nothing, or an append whose checks failed. -/
theorem commandsReadOnlyTheirBuffer : Obligations.CommandsReadOnlyTheirBuffer := by
  refine ⟨fun s m p r base buflen offset length => exec_append_setMem s p, fun s m p enc base nchars => exec_appendt_setMem s p enc,
    fun i s m => exec_setMem_of_not_appends s m, fun i s t m h hr => ?_⟩
  cases ha : appends i with
  | true => exact exec_setMem_of_appends_raised m ha h hr
  | false =>
    obtain ⟨t', hx, hxm⟩ := exec_setMem_of_not_appends s m ha
    cases h.symm.trans hx
    exact hxm

end Sys2Proof.Machine
end

section
/-! ## Encoding: the decoder, the opcode map and the packets on the channel (spec/30_encoding.md)

What the decoder reads from each packet, which header words are those of a command, then the step on a packet at the front of the
host's moves; each part ends with the statements it settles. -/

namespace Sys2Proof.Machine

/-! ### What the decoder reads from a packet -/

/-- `CONSTRUCT` from its packet (R72). -/
theorem decode_constructPacket (refin refout : Bool) (w1 w2 : Word) (rest : List Word) :
    decode (flagsHeader 0x1#4 refout refin :: w1 :: w2 :: rest) = .instr (constructOf refin refout w1 w2) := by
  rw [decode_cons (by simp), decodeHeader_construct]
  rfl

/-- `CONSTRUCT` from the fields of its packet, whatever the ignored half of `w2` holds (R72, R83). -/
theorem decode_constructFields (refin refout : Bool) (poly init xorout ign : Half) (rest : List Word) :
    decode (flagsHeader 0x1#4 refout refin :: (init ++ poly) :: (ign ++ xorout) :: rest) =
      .instr (.construct refin refout poly init xorout) := by
  rw [decode_constructPacket, constructOf_halves]

/-- `APPEND` from its packet (R74). -/
theorem decode_appendPacket (p r : Bool) (w1 w2 w3 w4 : Word) (rest : List Word) :
    decode (flagsHeader 0x3#4 r p :: w1 :: w2 :: w3 :: w4 :: rest) = .instr (appendOf p r w1 w2 w3 w4) := by
  rw [decode_cons (by simp), decodeHeader_append]
  rfl

/-- `APPENDT` from its packet (R75). -/
theorem decode_appendtPacket (p enc : Bool) (w1 w2 : Word) (rest : List Word) :
    decode (flagsHeader 0x4#4 enc p :: w1 :: w2 :: rest) = .instr (appendtOf p enc w1 w2) := by
  rw [decode_cons (by simp), decodeHeader_appendt]
  rfl

/-- `REV8` from its packet (R77). -/
theorem decode_rev8Packet (v : Byte) (rest : List Word) : decode ((0x600000#24 ++ v) :: rest) = .instr (.rev8 v) := by
  rw [decode_cons (by simp), decodeHeader_rev8]
  rfl

/-- `REV16` from its packet (R78). -/
theorem decode_rev16Packet (v : Half) (rest : List Word) : decode ((0x7000#16 ++ v) :: rest) = .instr (.rev16 v) := by
  rw [decode_cons (by simp), decodeHeader_rev16]
  rfl

/-- Dropping the ignored fields leaves an `APPEND` that holds 0 in them (R83). -/
theorem appendOf_of_fieldsOk {p r : Bool} {base buflen offset length : Word} (h : appendFieldsOk p r base buflen offset length = true) :
    appendOf p r base buflen offset length = .append p r base buflen offset length := by
  cases p with
  | false => simp_all [appendFieldsOk, appendOf]
  | true =>
    cases r with
    | false => simp_all [appendFieldsOk, appendOf]
    | true => rfl

/-- Dropping the ignored fields leaves an `APPENDT` that holds 0 in them (R83). -/
theorem appendtOf_of_fieldsOk {p : Bool} (enc : Bool) {base nchars : Word} (h : appendtFieldsOk p base nchars = true) :
    appendtOf p enc base nchars = .appendt p enc base nchars := by
  cases p with
  | false => simp_all [appendtFieldsOk, appendtOf]
  | true => rfl

/-- The decoder reads a well-formed command back from its encoding. -/
theorem decode_encode {i : Instr} (h : WellFormed i = true) : decode (encode i) = .instr i := by
  cases i with
  | construct refin refout poly init xorout => exact decode_constructFields refin refout poly init xorout 0#16 []
  | append p r base buflen offset length =>
    exact (decode_appendPacket p r base buflen offset length []).trans (congrArg _ (appendOf_of_fieldsOk h))
  | appendt p enc base nchars =>
    exact (decode_appendtPacket p enc base nchars []).trans (congrArg _ (appendtOf_of_fieldsOk enc h))
  | rev8 v => exact decode_rev8Packet v []
  | rev16 v => exact decode_rev16Packet v []
  | _ => rfl

/-- The encoding of a command is one whole packet (R70). -/
theorem encode_whole (i : Instr) : ∃ w0 ops, encode i = w0 :: ops ∧ packetWords w0 = ops.length + 1 := by
  cases i with
  | construct refin refout poly init xorout => exact Laws.EncodingLength.construct refin refout poly init xorout
  | append p r base buflen offset length => exact Laws.EncodingLength.append p r base buflen offset length
  | appendt p enc base nchars => exact Laws.EncodingLength.appendt p enc base nchars
  | rev8 v => exact Laws.EncodingLength.rev8 v
  | rev16 v => exact Laws.EncodingLength.rev16 v
  | _ => exact ⟨_, _, rfl, rfl⟩

/-- Settles O2: the encoding is a whole packet, so the words after it do not count, and alone it decodes to the command. -/
theorem decodeOfEncodeIsTheCommand : Obligations.DecodeOfEncodeIsTheCommand := by
  intro i rest h
  obtain ⟨w0, ops, hi, hl⟩ := encode_whole i
  rw [hi, List.cons_append, decode_append hl, ← hi, decode_encode h]

/-- A line of one well-formed command is its encoding, and decodes back (R88). -/
theorem encodesAs_encode {a : Asm} {i : Instr} {ws : List Word} (ha : assemble a = [i]) (h : WellFormed i = true)
    (hws : encode i = ws) : encodesAs a ws :=
  ⟨i, ha, hws, hws ▸ decode_encode h⟩

/-- Settles O1: the lines by `encodesAs_encode`, the illegal words by the decoder. -/
theorem workedEncodingsDecode : Obligations.WorkedEncodingsDecode := by
  refine ⟨?_, ?_, ?_, ?_, ?_, ?_, ?_, ?_, ?_, ?_, ?_, ?_, ?_, by decide⟩ <;>
    exact encodesAs_encode rfl rfl rfl

/-- Settles O8: the packets written out are those of the formats' headers. -/
theorem operandsAreTheFormatsFields : Obligations.OperandsAreTheFormatsFields :=
  ⟨decode_constructFields, decode_appendPacket true true, decode_appendPacket true false, decode_appendtPacket true,
    decode_rev8Packet, decode_rev16Packet⟩

/-! ### The header words of commands -/

/-- The header word of a command's packet (R71). -/
def headerWord (i : Instr) : Word := (encode i).headD 0#32

/-- `APPEND` as the decoder leaves it holds 0 in its ignored fields (R83). -/
theorem wellFormed_appendOf (p r : Bool) (w1 w2 w3 w4 : Word) : WellFormed (appendOf p r w1 w2 w3 w4) = true := by
  cases p with
  | false => rfl
  | true => cases r <;> rfl

/-- `APPEND` with or without its ignored fields is `APPEND`. -/
theorem mnemonicOf_appendOf (p r : Bool) (w1 w2 w3 w4 : Word) : mnemonicOf (appendOf p r w1 w2 w3 w4) = "APPEND" := by
  cases p with
  | false => rfl
  | true => cases r <;> rfl

/-- `APPENDT` as the decoder leaves it holds 0 in its ignored fields (R83). -/
theorem wellFormed_appendtOf (p enc : Bool) (w1 w2 : Word) : WellFormed (appendtOf p enc w1 w2) = true := by
  cases p <;> rfl

/-- `APPENDT` with or without its ignored fields is `APPENDT`. -/
theorem mnemonicOf_appendtOf (p enc : Bool) (w1 w2 : Word) : mnemonicOf (appendtOf p enc w1 w2) = "APPENDT" := by
  cases p <;> rfl

/-- A whole packet with the header word of a command is read as a well-formed command of the same row. -/
theorem decode_headerWord (j : Instr) {ops : List Word} (h : packetWords (headerWord j) ≤ ops.length + 1) :
    ∃ i, decode (headerWord j :: ops) = .instr i ∧ WellFormed i = true ∧ mnemonicOf i = mnemonicOf j := by
  rw [decode_cons h]
  cases j with
  | construct refin refout =>
    exact ⟨_, congrArg (decodeOperands · _ _ _ _) (decodeHeader_construct refout refin), rfl, rfl⟩
  | append p r =>
    exact ⟨_, congrArg (decodeOperands · _ _ _ _) (decodeHeader_append r p), wellFormed_appendOf .., mnemonicOf_appendOf ..⟩
  | appendt p enc =>
    exact ⟨_, congrArg (decodeOperands · _ _ _ _) (decodeHeader_appendt enc p), wellFormed_appendtOf .., mnemonicOf_appendtOf ..⟩
  | rev8 v => exact ⟨_, congrArg (decodeOperands · _ _ _ _) (decodeHeader_rev8 v), rfl, rfl⟩
  | rev16 v => exact ⟨_, congrArg (decodeOperands · _ _ _ _) (decodeHeader_rev16 v), rfl, rfl⟩
  | _ => exact ⟨_, rfl, rfl, rfl⟩

/-- The one-bit field of a word at a bit is that bit. -/
theorem ofBool_getLsbD (w : Word) (k : Nat) : BitVec.ofBool (w.getLsbD k) = w.extractLsb' k 1 := by
  ext i hi
  simp [show i = 0 by omega]

/-- `OPC` and the field below it are one field. -/
theorem opcOf_append_field (w : Word) {k n : Nat} (h : 28 = k + n) : opcOf w ++ w.extractLsb' k n = w.extractLsb' k (4 + n) :=
  BitVec.extractLsb'_append_extractLsb'_eq_extractLsb' h

/-- A field and all the bits below it are one field. -/
theorem field_append_low (w : Word) (k n : Nat) : w.extractLsb' k n ++ w.extractLsb' 0 k = w.extractLsb' 0 (n + k) :=
  BitVec.extractLsb'_append_extractLsb'_eq_extractLsb' k.zero_add.symm

/-- A header of formats K, B and T with its reserved bits 0 is its `OPC` and its flags (R72, R74, R75). -/
theorem flagsHeader_of_fields {w : Word} {opc : BitVec 4} (hopc : opcOf w = opc) (hres : w.extractLsb' 2 26 = 0#26) :
    flagsHeader opc (w.getLsbD 1) (w.getLsbD 0) = w := by
  rw [flagsHeader, ofBool_getLsbD, ofBool_getLsbD, ← hopc, ← hres, opcOf_append_field w rfl,
    BitVec.extractLsb'_append_extractLsb'_eq_extractLsb' (show 2 = 1 + 1 from rfl), field_append_low]
  exact BitVec.extractLsb'_eq_self

/-- A header of format V with its reserved bits 0 is its `OPC` and its `VARIANT` (R73). -/
theorem presetHeader_of_fields {w : Word} (hopc : opcOf w = 0x2#4) (hres : w.extractLsb' 3 25 = 0#25) :
    0x2#4 ++ 0#25 ++ w.extractLsb' 0 3 = w := by
  rw [← hopc, ← hres, opcOf_append_field w rfl, field_append_low]
  exact BitVec.extractLsb'_eq_self

/-- A header of format N with its reserved bits 0 is its `OPC` (R76). -/
theorem digestHeader_of_fields {w : Word} (hopc : opcOf w = 0x5#4) (hres : w.extractLsb' 0 28 = 0#28) : 0x5#4 ++ 0#28 = w := by
  rw [← hopc, ← hres, opcOf_append_field w rfl]
  exact BitVec.extractLsb'_eq_self

/-- A header of format R8 with its reserved bits 0 is its `OPC` and its byte (R77). -/
theorem rev8Header_of_fields {w : Word} (hopc : opcOf w = 0x6#4) (hres : w.extractLsb' 8 20 = 0#20) :
    0x6#4 ++ 0#20 ++ w.extractLsb' 0 8 = w := by
  rw [← hopc, ← hres, opcOf_append_field w rfl, field_append_low]
  exact BitVec.extractLsb'_eq_self

/-- A header of format R16 with its reserved bits 0 is its `OPC` and its 16-bit value (R78). -/
theorem rev16Header_of_fields {w : Word} (hopc : opcOf w = 0x7#4) (hres : w.extractLsb' 16 12 = 0#12) :
    0x7#4 ++ 0#12 ++ w.extractLsb' 0 16 = w := by
  rw [← hopc, ← hres, opcOf_append_field w rfl, field_append_low]
  exact BitVec.extractLsb'_eq_self

/-- Every `VARIANT` but 7 is a preset's (R80). -/
theorem exists_preset_of_variant (v : BitVec 3) (h : v ≠ 7#3) : ∃ j, headerWord j = 0x2#4 ++ 0#25 ++ v := by
  have hlist : ∃ j ∈ [Instr.presetArc, .presetIeee8023, .presetCcitt, .presetKermit, .presetX25, .presetXmodem, .presetZmodem],
      headerWord j = 0x2#4 ++ 0#25 ++ v := by
    revert v
    decide
  obtain ⟨j, -, hj⟩ := hlist
  exact ⟨j, hj⟩

/-- The codes of `OPC`: those of the seven formats, and the reserved ones (R82). -/
theorem opcOf_cases (w : Word) : opcOf w = 0x1#4 ∨ opcOf w = 0x2#4 ∨ opcOf w = 0x3#4 ∨ opcOf w = 0x4#4 ∨ opcOf w = 0x5#4 ∨
    opcOf w = 0x6#4 ∨ opcOf w = 0x7#4 ∨ opcOf w = 0x0#4 ∨ 0x8#4 ≤ opcOf w := by
  generalize opcOf w = opc
  revert opc
  decide

/-- A header that is no illegal encoding is a command's. -/
theorem exists_headerWord_of_legal {w0 : Word} (h : ¬ IllegalHeader w0) : ∃ j, headerWord j = w0 := by
  rcases opcOf_cases w0 with ho | ho | ho | ho | ho | ho | ho | ho
  · have hr : w0.extractLsb' 2 26 = 0#26 := by simpa [IllegalHeader, ho] using h
    exact ⟨.construct (w0.getLsbD 0) (w0.getLsbD 1) 0#16 0#16 0#16, flagsHeader_of_fields ho hr⟩
  · obtain ⟨hr, hv⟩ : w0.extractLsb' 3 25 = 0#25 ∧ w0.extractLsb' 0 3 ≠ 7#3 := by simpa [IllegalHeader, ho] using h
    obtain ⟨j, hj⟩ := exists_preset_of_variant _ hv
    exact ⟨j, hj.trans (presetHeader_of_fields ho hr)⟩
  · have hr : w0.extractLsb' 2 26 = 0#26 := by simpa [IllegalHeader, ho] using h
    exact ⟨.append (w0.getLsbD 0) (w0.getLsbD 1) 0#32 0#32 0#32 0#32, flagsHeader_of_fields ho hr⟩
  · have hr : w0.extractLsb' 2 26 = 0#26 := by simpa [IllegalHeader, ho] using h
    exact ⟨.appendt (w0.getLsbD 0) (w0.getLsbD 1) 0#32 0#32, flagsHeader_of_fields ho hr⟩
  · have hr : w0.extractLsb' 0 28 = 0#28 := by simpa [IllegalHeader, ho] using h
    exact ⟨.digest, digestHeader_of_fields ho hr⟩
  · have hr : w0.extractLsb' 8 20 = 0#20 := by simpa [IllegalHeader, ho] using h
    exact ⟨.rev8 (w0.extractLsb' 0 8), rev8Header_of_fields ho hr⟩
  · have hr : w0.extractLsb' 16 12 = 0#12 := by simpa [IllegalHeader, ho] using h
    exact ⟨.rev16 (w0.extractLsb' 0 16), rev16Header_of_fields ho hr⟩
  · exact absurd (.inl ho) h

/-- A reserved `OPC` is rejected by name (R82). -/
theorem decodeHeader_of_reservedOpcode {w0 : Word} (h : opcOf w0 = 0x0#4 ∨ 0x8#4 ≤ opcOf w0) :
    decodeHeader w0 = .illegal .reservedOpcode := by
  have hne : ∀ opc : BitVec 4, opc = 0x0#4 ∨ 0x8#4 ≤ opc → opc ∉ [0x1#4, 0x2#4, 0x3#4, 0x4#4, 0x5#4, 0x6#4, 0x7#4] := by decide
  have ho := hne _ h
  simp only [List.mem_cons, List.not_mem_nil, or_false, not_or] at ho
  simp [decodeHeader, ho]

/-- An illegal encoding is rejected by name (R82, R84). -/
theorem decodeHeader_of_illegalHeader {w0 : Word} (h : IllegalHeader w0) : ∃ why, decodeHeader w0 = .illegal why := by
  rcases h with ho | ⟨ho | ho | ho, hr⟩ | ⟨ho, hr⟩ | ⟨ho, hr⟩ | ⟨ho, hr⟩ | ⟨ho, hr⟩ | ⟨ho, hv⟩
  · exact ⟨_, decodeHeader_of_reservedOpcode ho⟩
  on_goal 8 =>
    by_cases hr : w0.extractLsb' 3 25 = 0#25
    · exact ⟨.reservedVariant, by simp [decodeHeader, ho, hr, hv, presetOf]⟩
    · exact ⟨.reservedBit, by simp [decodeHeader, ho, hr]⟩
  all_goals exact ⟨.reservedBit, by simp [decodeHeader, ho, hr]⟩

/-! ### Illegal packets -/

/-- A packet is illegal when it is whole and its header is rejected, whatever its operand words hold (R82, R83). -/
theorem decode_eq_illegal_iff {w0 : Word} {ops : List Word} {why : IllegalWhy} :
    decode (w0 :: ops) = .illegal why ↔ packetWords w0 ≤ ops.length + 1 ∧ decodeHeader w0 = .illegal why := by
  by_cases hl : packetWords w0 ≤ ops.length + 1
  · rw [decode_cons hl]
    cases decodeHeader w0 <;> simp [decodeOperands, hl]
  · simp [decode_short (Nat.lt_of_not_le hl), hl]

/-- A whole packet is illegal exactly when its header is an illegal encoding (R82): any other header is a command's. -/
theorem decode_illegal_iff_illegalHeader {w0 : Word} {ops : List Word} (hl : packetWords w0 ≤ ops.length + 1) :
    (∃ why, decode (w0 :: ops) = .illegal why) ↔ IllegalHeader w0 := by
  constructor
  · rintro ⟨why, hd⟩
    by_contra hlegal
    obtain ⟨j, rfl⟩ := exists_headerWord_of_legal hlegal
    obtain ⟨i, hi, -⟩ := decode_headerWord j hl
    cases hd.symm.trans hi
  · intro hw
    obtain ⟨why, hh⟩ := decodeHeader_of_illegalHeader hw
    exact ⟨why, decode_eq_illegal_iff.mpr ⟨hl, hh⟩⟩

/-- A packet that decodes to a command is whole, and its header word is that of a command. -/
theorem exists_headerWord_of_decode {w0 : Word} {ops : List Word} {i : Instr} (hd : decode (w0 :: ops) = .instr i) :
    packetWords w0 ≤ ops.length + 1 ∧ ∃ j, headerWord j = w0 := by
  have hl : packetWords w0 ≤ ops.length + 1 := by
    by_contra hshort
    cases hd.symm.trans (decode_short (Nat.lt_of_not_le hshort))
  refine ⟨hl, exists_headerWord_of_legal fun hw => ?_⟩
  obtain ⟨why, hi⟩ := (decode_illegal_iff_illegalHeader hl).mpr hw
  cases hd.symm.trans hi

/-- Settles O3: what is read from the header word of a command is well formed. -/
theorem decodedCommandIsWellFormed : Obligations.DecodedCommandIsWellFormed := by
  intro ws i hd
  have hwf : WellFormed i = true := by
    cases ws with
    | nil => cases hd
    | cons w0 ops =>
      obtain ⟨hl, j, rfl⟩ := exists_headerWord_of_decode hd
      obtain ⟨i', hi', hwf, -⟩ := decode_headerWord j hl
      cases hd.symm.trans hi'
      exact hwf
  exact ⟨hwf, decode_encode hwf⟩

/-! ### The opcode map -/

/-- A row's mask keeps a field: a header the row selects has the row's value there (R79). -/
theorem field_of_selects {row : OpcodeRow} {w0 : Word} (h : row.selects w0 = true) {k n : Nat}
    (hm : row.mask.extractLsb' k n = BitVec.allOnes n) : w0.extractLsb' k n = row.value.extractLsb' k n := by
  have hv : w0 &&& row.mask = row.value := eq_of_beq h
  rw [← hv, BitVec.extractLsb'_and, hm, BitVec.and_allOnes]

/-- A row whose mask keeps every bit selects one header (R79). -/
theorem eq_of_selects {row : OpcodeRow} {w0 : Word} (h : row.selects w0 = true) (hm : row.mask = BitVec.allOnes 32) :
    row.value = w0 := by
  have hv : w0 &&& row.mask = row.value := eq_of_beq h
  rw [← hv, hm, BitVec.and_allOnes]

/-- The mask of formats K, B and T drops the flags. -/
theorem flagsHeader_and_mask (opc : BitVec 4) (b1 b0 : Bool) : flagsHeader opc b1 b0 &&& 0xFFFFFFFC#32 = opc ++ 0#28 := by
  revert opc b1 b0
  decide

/-- A mask of the high bits drops the low part. -/
theorem append_and_highMask {n m : Nat} (h : BitVec n) (l : BitVec m) : (h ++ l) &&& (BitVec.allOnes n ++ 0#m) = h ++ 0#m := by
  rw [BitVec.and_append, BitVec.and_allOnes, BitVec.and_zero]

/-- The header word of a command is selected by the row of its mnemonic, which has the packet's number of words (R79). -/
theorem exists_row_of_headerWord (j : Instr) :
    ∃ row ∈ opcodeMap, row.selects (headerWord j) = true ∧ row.mnemonic = mnemonicOf j ∧
      row.words = packetWords (headerWord j) := by
  cases j with
  | construct refin refout =>
    exact ⟨opcodeMap[0], List.getElem_mem _, beq_iff_eq.mpr (flagsHeader_and_mask 0x1#4 refout refin), rfl,
      (packetWords_flagsHeader 0x1#4 refout refin).symm⟩
  | presetArc => exact ⟨opcodeMap[1], List.getElem_mem _, rfl, rfl, rfl⟩
  | presetIeee8023 => exact ⟨opcodeMap[2], List.getElem_mem _, rfl, rfl, rfl⟩
  | presetCcitt => exact ⟨opcodeMap[3], List.getElem_mem _, rfl, rfl, rfl⟩
  | presetKermit => exact ⟨opcodeMap[4], List.getElem_mem _, rfl, rfl, rfl⟩
  | presetX25 => exact ⟨opcodeMap[5], List.getElem_mem _, rfl, rfl, rfl⟩
  | presetXmodem => exact ⟨opcodeMap[6], List.getElem_mem _, rfl, rfl, rfl⟩
  | presetZmodem => exact ⟨opcodeMap[7], List.getElem_mem _, rfl, rfl, rfl⟩
  | append p r =>
    exact ⟨opcodeMap[8], List.getElem_mem _, beq_iff_eq.mpr (flagsHeader_and_mask 0x3#4 r p), rfl,
      (packetWords_flagsHeader 0x3#4 r p).symm⟩
  | appendt p enc =>
    exact ⟨opcodeMap[9], List.getElem_mem _, beq_iff_eq.mpr (flagsHeader_and_mask 0x4#4 enc p), rfl,
      (packetWords_flagsHeader 0x4#4 enc p).symm⟩
  | digest => exact ⟨opcodeMap[10], List.getElem_mem _, rfl, rfl, rfl⟩
  | rev8 v =>
    exact ⟨opcodeMap[11], List.getElem_mem _, beq_iff_eq.mpr (append_and_highMask 0x600000#24 v), rfl, (packetWords_rev8 v).symm⟩
  | rev16 v =>
    exact ⟨opcodeMap[12], List.getElem_mem _, beq_iff_eq.mpr (append_and_highMask 0x7000#16 v), rfl, (packetWords_rev16 v).symm⟩

/-- A header word that a row selects is that of a command of the row (R79). -/
theorem exists_headerWord_of_selects {row : OpcodeRow} {w0 : Word} (hrow : row ∈ opcodeMap) (h : row.selects w0 = true) :
    ∃ j, headerWord j = w0 ∧ mnemonicOf j = row.mnemonic := by
  simp only [opcodeMap, List.mem_cons, List.not_mem_nil, or_false] at hrow
  rcases hrow with rfl | rfl | rfl | rfl | rfl | rfl | rfl | rfl | rfl | rfl | rfl | rfl | rfl
  · exact ⟨.construct (w0.getLsbD 0) (w0.getLsbD 1) 0#16 0#16 0#16,
      flagsHeader_of_fields (field_of_selects h rfl) (field_of_selects h rfl), rfl⟩
  · exact ⟨.presetArc, eq_of_selects h rfl, rfl⟩
  · exact ⟨.presetIeee8023, eq_of_selects h rfl, rfl⟩
  · exact ⟨.presetCcitt, eq_of_selects h rfl, rfl⟩
  · exact ⟨.presetKermit, eq_of_selects h rfl, rfl⟩
  · exact ⟨.presetX25, eq_of_selects h rfl, rfl⟩
  · exact ⟨.presetXmodem, eq_of_selects h rfl, rfl⟩
  · exact ⟨.presetZmodem, eq_of_selects h rfl, rfl⟩
  · exact ⟨.append (w0.getLsbD 0) (w0.getLsbD 1) 0#32 0#32 0#32 0#32,
      flagsHeader_of_fields (field_of_selects h rfl) (field_of_selects h rfl), rfl⟩
  · exact ⟨.appendt (w0.getLsbD 0) (w0.getLsbD 1) 0#32 0#32,
      flagsHeader_of_fields (field_of_selects h rfl) (field_of_selects h rfl), rfl⟩
  · exact ⟨.digest, eq_of_selects h rfl, rfl⟩
  · exact ⟨.rev8 (w0.extractLsb' 0 8), rev8Header_of_fields (field_of_selects h rfl) (field_of_selects h rfl), rfl⟩
  · exact ⟨.rev16 (w0.extractLsb' 0 16), rev16Header_of_fields (field_of_selects h rfl) (field_of_selects h rfl), rfl⟩

/-- No two rows have the same value in the bits both masks keep. -/
theorem rows_differ : ∀ row ∈ opcodeMap, ∀ row' ∈ opcodeMap, row.value &&& row'.mask = row'.value &&& row.mask → row = row' := by
  decide

/-- No two rows select the same header word (R79). -/
theorem row_eq_of_selects {row row' : OpcodeRow} {w0 : Word} (hrow : row ∈ opcodeMap) (hrow' : row' ∈ opcodeMap)
    (h : row.selects w0 = true) (h' : row'.selects w0 = true) : row = row' := by
  have hv : w0 &&& row.mask = row.value := eq_of_beq h
  have hv' : w0 &&& row'.mask = row'.value := eq_of_beq h'
  refine rows_differ row hrow row' hrow' ?_
  rw [← hv, ← hv', BitVec.and_assoc, BitVec.and_assoc, BitVec.and_comm row.mask]

/-- Settles O6: a header word is that of a command, which a row of the map selects, or an illegal encoding. -/
theorem headerSelectsOneRow : Obligations.HeaderSelectsOneRow := by
  intro w0 ops hl
  refine ⟨fun i hd => ?_, fun row hrow h => ?_, fun hnone => ?_, fun row hrow row' hrow' => row_eq_of_selects hrow hrow'⟩
  · obtain ⟨-, j, rfl⟩ := exists_headerWord_of_decode hd
    obtain ⟨i', hi', -, hm⟩ := decode_headerWord j hl
    cases hd.symm.trans hi'
    obtain ⟨row, hrow, hsel, hmn, hwords⟩ := exists_row_of_headerWord j
    exact ⟨row, hrow, hsel, hmn.trans hm.symm, hwords⟩
  · obtain ⟨j, rfl, hj⟩ := exists_headerWord_of_selects hrow h
    obtain ⟨i, hi, -, hm⟩ := decode_headerWord j hl
    exact ⟨i, hi, hm.trans hj⟩
  · rw [decode_illegal_iff_illegalHeader hl]
    by_contra hlegal
    obtain ⟨j, rfl⟩ := exists_headerWord_of_legal hlegal
    obtain ⟨row, hrow, hsel, -⟩ := exists_row_of_headerWord j
    exact Bool.false_ne_true ((hnone row hrow).symm.trans hsel)

/-! ### The step on a packet -/

/-- With a packet pending, of a command or illegal, the step is the packet's. -/
theorem step_of_pending {s : State} (h : s.pending ≠ .incomplete) : step s = packetStep s := by
  cases hh : s.host with
  | nil => simp [State.pending, hh, leadingWords, decode] at h
  | cons m moves =>
    cases m with
    | word w0 => exact step_of_word hh
    | reset => simp [State.pending, hh, leadingWords, decode] at h
    | write a b => simp [State.pending, hh, leadingWords, decode] at h

/-- A pending command is executed once its packet is taken (R70). -/
theorem step_of_pending_instr {s : State} {i : Instr} (h : s.pending = .instr i) : step s = exec i (takePacket s) := by
  rw [step_of_pending (by simp [h]), packetStep, ← State.pending, h]

/-- A pending illegal packet is taken and answered `IllegalCommand`, and changes nothing (R82). -/
theorem step_of_pending_illegal {s : State} {why : IllegalWhy} (h : s.pending = .illegal why) :
    step s = .next ((takePacket s).setRsp (some ⟨.illegalCommand, 0#16⟩)) := by
  rw [step_of_pending (by simp [h]), packetStep, ← State.pending, h]
  rfl

/-- A whole packet of a command at the front is taken and the command executed (R70, R84). -/
theorem step_of_packet_instr {s : State} {w0 : Word} {ops : List Word} {rest : List HostMove} {i : Instr}
    (hh : s.host = issueWords (w0 :: ops) rest) (hl : packetWords w0 = ops.length + 1) (hd : decode (w0 :: ops) = .instr i) :
    step s = exec i (s.setHost rest) := by
  rw [step_of_pending_instr ((pending_issueWords hh hl).trans hd), takePacket_issueWords hh hl]

/-- Settles O9, by `step_of_packet_instr`. -/
theorem stepRunsTheDecodedCommand : Obligations.StepRunsTheDecodedCommand :=
  fun _ _ _ _ _ => step_of_packet_instr

/-- Settles O10: the encoding is a whole packet that decodes to the command. -/
theorem issuedCommandRuns : Obligations.IssuedCommandRuns := by
  intro s i rest hwf hh
  obtain ⟨w0, ops, hi, hl⟩ := encode_whole i
  exact step_of_packet_instr (hi ▸ hh) hl (hi ▸ decode_encode hwf)

/-- Settles O7: the table by the code of `OPC`, the step by `step_of_packet`. -/
theorem packetTakesItsWordsAndAnswersOnce : Obligations.PacketTakesItsWordsAndAnswersOnce := by
  refine ⟨fun w0 => ?_, fun s w0 ops rest hl => step_of_packet (s := s.setHost _) rfl hl⟩
  unfold packetWords
  generalize opcOf w0 = opc
  revert opc
  decide

/-- Settles O5: an illegal packet at the front is pending, taken and answered. -/
theorem illegalEncodingsRespondIllegalCommand : Obligations.IllegalEncodingsRespondIllegalCommand := by
  refine ⟨fun w0 ops hl => decode_illegal_iff_illegalHeader hl, fun s w0 ops rest hl hw => ?_⟩
  obtain ⟨why, hd⟩ := (decode_illegal_iff_illegalHeader hl.le).mpr hw
  have hp : (s.setHost (issueWords (w0 :: ops) rest)).pending = .illegal why := (pending_issueWords rfl hl).trans hd
  rw [step_of_pending_illegal hp, takePacket_issueWords rfl hl, State.setHost_setHost]

/-- A write of the buffer space after the words of a packet cut short is refused (log 9). -/
theorem step_of_short_write {s : State} {w0 : Word} {ops : List Word} {a : Addr} {b : Byte} {rest : List HostMove}
    (hh : s.host = issueWords (w0 :: ops) (.write a b :: rest)) (hl : ops.length + 1 < packetWords w0) :
    step s = .refused .hostProtocol := by
  rw [step_of_short hh rfl hl]
  simp only [partialPacketStep, hh, afterWords_issueWords, afterWords]

/-- Settles O60: what follows the words of a packet cut short decides the step. -/
theorem packetCutShort : Obligations.PacketCutShort := by
  intro s w0 ops hl
  refine ⟨step_of_short_idle rfl hl, fun rest => ?_, fun a b rest => step_of_short_write rfl hl⟩
  rw [step_of_short_reset rfl hl]
  rfl

/-! ### Ignored fields -/

/-- Two whole packets of one command at the front of the same moves give the same step (R83). -/
theorem step_congr_of_decode {w0 v0 : Word} {ops ops' : List Word} {i : Instr} (s : State) (rest : List HostMove)
    (hl : packetWords w0 = ops.length + 1) (hl' : packetWords v0 = ops'.length + 1)
    (hd : decode (w0 :: ops) = .instr i) (hd' : decode (v0 :: ops') = .instr i) :
    step (s.setHost (issueWords (w0 :: ops) rest)) = step (s.setHost (issueWords (v0 :: ops') rest)) := by
  rw [step_of_packet_instr rfl hl hd, step_of_packet_instr rfl hl' hd', State.setHost_setHost, State.setHost_setHost]

/-- `CONSTRUCT` reads nothing of the high half of `w2` (R83). -/
theorem constructOf_ignored (refin refout : Bool) (w1 : Word) (x ign ign' : Half) :
    constructOf refin refout w1 (ign ++ x) = constructOf refin refout w1 (ign' ++ x) := by
  simp only [constructOf, low_half]

/-- Settles O4: whatever the ignored fields hold, the packets decode to one command; an illegal header is so whatever follows. -/
theorem ignoredFieldsChangeNothing : Obligations.IgnoredFieldsChangeNothing := by
  refine ⟨fun s refin refout w1 x ign ign' rest => ?_, fun s w1 w2 w3 w4 v3 v4 rest => ?_,
    fun s r r' w1 w2 w3 w4 v1 v2 v3 v4 rest => ?_, fun s enc w1 w2 v1 v2 rest => ?_, fun w0 ops ops' why hlen hd => ?_⟩
  · refine step_congr_of_decode s rest (by simp) (by simp) (decode_constructPacket refin refout w1 (ign ++ x) []) ?_
    rw [constructOf_ignored refin refout w1 x ign ign']
    exact decode_constructPacket refin refout w1 (ign' ++ x) []
  · exact step_congr_of_decode s rest (by simp) (by simp) (decode_appendPacket true false w1 w2 w3 w4 [])
      (decode_appendPacket true false w1 w2 v3 v4 [])
  · exact step_congr_of_decode s rest (by simp) (by simp) (decode_appendPacket false r w1 w2 w3 w4 [])
      (decode_appendPacket false r' v1 v2 v3 v4 [])
  · exact step_congr_of_decode s rest (by simp) (by simp) (decode_appendtPacket false enc w1 w2 [])
      (decode_appendtPacket false enc v1 v2 [])
  · rw [decode_eq_illegal_iff] at hd ⊢
    rwa [← hlen]

/-! ### The response -/

/-- The three fields of the response word (R85). -/
theorem responseWord_fields (r : Response) : (responseWord r).extractLsb' 18 14 = 0#14 ∧
    (responseWord r).extractLsb' 16 2 = statusCode r.status ∧ (responseWord r).extractLsb' 0 16 = r.data := by
  refine ⟨?_, ?_, extract_append_low _ _⟩
  · exact (extract_append_high (0#14 ++ statusCode r.status) r.data 2 14).trans (extract_append_top _ _)
  · exact (extract_append_high (0#14 ++ statusCode r.status) r.data 0 2).trans (extract_append_low _ _)

/-- A command answers with `DATA` 0 when it does not end `OK`, and whatever its outcome when it constructs or appends (R85). -/
theorem exec_response_data {i : Instr} {s t : State} (h : exec i s = .next t) : ∃ r, t.rsp = some r ∧
    (r.status ≠ .ok → r.data = 0#16) ∧ ((constructs i || appends i) = true → r.data = 0#16) := by
  rcases exec_next_cases h with ⟨c, -, rfl⟩ | ⟨e, q, -, -, -, rfl⟩ | ⟨d, hc, ha, rfl⟩ | ⟨st, -, -, rfl⟩
  · exact ⟨_, rfl, fun _ => rfl, fun _ => rfl⟩
  · exact ⟨_, rfl, fun _ => rfl, fun _ => rfl⟩
  · exact ⟨_, rfl, fun hne => absurd rfl hne, fun hca => by simp [hc, ha] at hca⟩
  · exact ⟨_, rfl, fun _ => rfl, fun _ => rfl⟩

/-- A `DIGEST` that ends `OK` has a constructed engine, and answers with its digest (R85, R151). -/
theorem exec_digest_ok {s t : State} {r : Response} (h : exec .digest s = .next t) (hr : t.rsp = some r) (hok : r.status = .ok) :
    ∃ e, s.engine = some e ∧ r.data = digestOf e := by
  cases he : s.engine with
  | none =>
    cases h.symm.trans (exec_digest_of_not_valid (s.valid_eq_false_iff.mpr he))
    cases hr
    cases hok
  | some e =>
    cases h.symm.trans (exec_digest_of_engine he)
    cases hr
    exact ⟨e, rfl, rfl⟩

/-- Settles O11: constructions and appends answer 0 by `exec_response_data`; `DIGEST`, `REV8` and `REV16` answer a value. -/
theorem responseWordAndData : Obligations.ResponseWordAndData := by
  refine ⟨responseWord_fields, rfl, rfl, rfl, rfl, fun s t i h => ?_, fun s t why hp h => ?_⟩
  · obtain ⟨r, hr, herr, hzero⟩ := exec_response_data h
    refine ⟨r, hr, herr, ?_⟩
    cases i with
    | digest => exact exec_digest_ok h hr
    | rev8 v => cases h; cases hr; rfl
    | rev16 v => cases h; cases hr; rfl
    | _ => exact hzero rfl
  · cases h.symm.trans (step_of_pending_illegal hp)
    rfl

end Sys2Proof.Machine
end

section
/-! ## The table builder and construction (spec/40_table_builder_construct.md)

The step of R100 as a linear map, what a table entry is in its terms, the table of the zero polynomial, and how a construction ends; each
part ends with the statements it settles. -/

namespace Sys2Proof.Machine

/-! ### The step of the table builder -/

/-- The step in one formula: the shifted value, with the reflected polynomial added when bit 0 was 1 (R100). -/
theorem tableStep_eq (rp w : Half) : tableStep rp w = (w >>> 1) ^^^ (if w.getLsbD 0 = true then rp else 0#16) := by
  unfold tableStep
  split
  · rfl
  · exact BitVec.xor_zero.symm

/-- The step is linear over XOR: the shift is, and the polynomial is added twice, and so cancels, when both bits 0 are 1. -/
theorem tableStep_xor (rp v w : Half) : tableStep rp (v ^^^ w) = tableStep rp v ^^^ tableStep rp w := by
  have hadded : (if (v ^^^ w).getLsbD 0 = true then rp else 0#16) =
      (if v.getLsbD 0 = true then rp else 0#16) ^^^ (if w.getLsbD 0 = true then rp else 0#16) := by
    rw [BitVec.getLsbD_xor]
    cases v.getLsbD 0 <;> cases w.getLsbD 0 <;> simp
  rw [tableStep_eq, tableStep_eq, tableStep_eq, BitVec.ushiftRight_xor_distrib, hadded]
  ac_rfl

/-- The iterated step is linear over XOR. -/
theorem tableSteps_xor (rp : Half) (n : Nat) (v w : Half) :
    tableSteps rp n (v ^^^ w) = tableSteps rp n v ^^^ tableSteps rp n w := by
  induction n generalizing v w with
  | zero => rfl
  | succ n ih => rw [tableSteps, tableStep_xor, ih, tableSteps, tableSteps]

/-- Zero stays zero under the iterated step, as under every linear map. -/
@[simp] theorem tableSteps_zero (rp : Half) (n : Nat) : tableSteps rp n 0#16 = 0#16 := by
  have h := tableSteps_xor rp n 0#16 0#16
  rwa [BitVec.xor_self, BitVec.xor_self] at h

/-- A single 1 bit above bit 0 only moves down. -/
theorem tableStep_twoPow_succ (rp : Half) {k : Nat} (h : k + 1 < 16) :
    tableStep rp (BitVec.twoPow 16 (k + 1)) = BitVec.twoPow 16 k := by
  have hbit : (BitVec.twoPow 16 (k + 1)).getLsbD 0 = false := by simp
  rw [tableStep_eq, hbit, if_neg Bool.false_ne_true, BitVec.xor_zero]
  ext j hj
  rw [BitVec.getElem_ushiftRight, BitVec.getLsbD_twoPow, BitVec.getElem_twoPow, decide_eq_true h, Bool.true_and, decide_eq_decide]
  omega

/-- A single 1 bit at `k` is shifted out at step `k` + 1, which leaves the reflected polynomial to the steps after it (R102). -/
theorem tableSteps_twoPow (rp : Half) (n : Nat) {k : Nat} (h : k < 16) :
    tableSteps rp (n + k + 1) (BitVec.twoPow 16 k) = tableSteps rp n rp := by
  induction k with
  | zero =>
    have hlast : tableStep rp (BitVec.twoPow 16 0) = rp := by
      rw [BitVec.twoPow_zero, tableStep_eq]
      exact BitVec.zero_xor
    exact congrArg (tableSteps rp n) hlast
  | succ k ih => rw [tableSteps, tableStep_twoPow_succ rp h, ← Nat.add_assoc, ih (by omega)]

/-! ### The entries of a table -/

/-- An entry is the index, zero-extended, after eight steps with the reflected polynomial (R100). -/
theorem entry_tableBuild (p : Half) (i : Byte) : entry (tableBuild p) i = tableSteps (rev16 p) 8 (i.setWidth 16) := by
  simp [entry, tableBuild, tableOfReflected, tableEntry]

/-- A table is linear over XOR in its index (R102). -/
theorem entry_tableBuild_xor (p : Half) (i j : Byte) :
    entry (tableBuild p) (i ^^^ j) = entry (tableBuild p) i ^^^ entry (tableBuild p) j := by
  simp only [entry_tableBuild, BitVec.setWidth_xor, tableSteps_xor]

/-- The eight generating entries: the steps that remain after the 1 bit of the index is shifted out (R102). -/
theorem entry_tableBuild_twoPow (p : Half) {k : Nat} (h : k < 8) :
    entry (tableBuild p) (BitVec.ofNat 8 (2 ^ k)) = tableSteps (rev16 p) (7 - k) (rev16 p) := by
  have hindex : (BitVec.ofNat 8 (2 ^ k)).setWidth 16 = BitVec.twoPow 16 k := by
    revert k
    decide
  have hsteps : 8 = 7 - k + k + 1 := by omega
  calc entry (tableBuild p) (BitVec.ofNat 8 (2 ^ k))
      = tableSteps (rev16 p) 8 (BitVec.twoPow 16 k) := by rw [entry_tableBuild, hindex]
    _ = tableSteps (rev16 p) (7 - k + k + 1) (BitVec.twoPow 16 k) := by rw [← hsteps]
    _ = tableSteps (rev16 p) (7 - k) (rev16 p) := tableSteps_twoPow _ _ (by omega)

/-- Settles O31: the table is linear, so its entry 0 is 0; entry 0x80 is the last generating one; the worked values are evaluated. -/
theorem tableProperties : Obligations.TableProperties := by
  refine ⟨fun p => ⟨?_, ?_, entry_tableBuild_xor p, fun k => entry_tableBuild_twoPow p⟩, by decide +kernel⟩
  · exact (entry_tableBuild p 0#8).trans (tableSteps_zero _ 8)
  · exact entry_tableBuild_twoPow p (k := 7) (by decide)

/-- Settles O32: both runs of the step are evaluated, and each entry is the last value of its run. -/
theorem workedTableEntries : Obligations.WorkedTableEntries := by
  have hrev1 : rev16 0x8005#16 = 0xA001#16 := by decide +kernel
  have hrev2 : rev16 0x1021#16 = 0x8408#16 := by decide +kernel
  refine ⟨hrev1, by decide, by decide, ?_, hrev2, by decide, by decide, ?_⟩
  · rw [entry_tableBuild, hrev1]
    decide
  · rw [entry_tableBuild, hrev2]
    decide

/-! ### The zero polynomial -/

/-- The reversal of the zero polynomial is zero. -/
@[simp] theorem rev16_zero : rev16 0#16 = 0#16 := by decide +kernel

/-- With the zero polynomial the steps are shifts (R101). -/
theorem tableSteps_zeroPolynomial (n : Nat) (w : Half) : tableSteps 0#16 n w = w >>> n := by
  induction n generalizing w with
  | zero => exact (BitVec.ushiftRight_zero w).symm
  | succ n ih =>
    have hstep : tableStep 0#16 w = w >>> 1 := by rw [tableStep_eq, ite_self, BitVec.xor_zero]
    rw [tableSteps, hstep, ih, ← BitVec.shiftRight_add, Nat.add_comm]

/-- Every entry of the zero polynomial's table is zero: eight shifts clear a byte (R101). -/
@[simp] theorem entry_tableBuild_zeroPolynomial (i : Byte) : entry (tableBuild 0#16) i = 0#16 := by
  rw [entry_tableBuild, rev16_zero, tableSteps_zeroPolynomial]
  ext j hj
  simp

/-- With the zero polynomial's table a fold shifts, whatever the byte (R120). -/
theorem fold_zeroPolynomial {e : Engine} (r : Half) (b : Byte) (h : e.table = tableBuild 0#16) : fold e r b = r >>> 8 := by
  rw [fold, h, entry_tableBuild_zeroPolynomial, BitVec.xor_zero]

/-- Settles O38: two folds shift by 16, the width of the register. -/
theorem zeroPolynomialShiftsOut : Obligations.ZeroPolynomialShiftsOut := by
  refine ⟨entry_tableBuild_zeroPolynomial, fun e r b c h => ⟨fold_zeroPolynomial r b h, ?_⟩⟩
  calc fold e (fold e r b) c
      = r >>> 8 >>> 8 := by rw [fold_zeroPolynomial _ c h, fold_zeroPolynomial r b h]
    _ = r >>> (8 + 8) := (BitVec.shiftRight_add r 8 8).symm
    _ = 0#16 := BitVec.ushiftRight_eq_zero (le_refl 16)

/-! ### Construction -/

/-- `CONSTRUCT` is the shared construction with the five operands as `CFG` (R105). -/
theorem exec_construct (c : Cfg) (s : State) : exec (.construct c.refin c.refout c.poly c.init c.xorout) s = construct c s := rfl

/-- A preset is the shared construction with the parameters of its row (R106, R160). -/
theorem exec_preset {row : PresetRow} (h : row ∈ presetRows) (s : State) : exec row.instr s = construct row.cfg s := by
  simp only [presetRows, List.mem_cons, List.not_mem_nil, or_false] at h
  rcases h with rfl | rfl | rfl | rfl | rfl | rfl | rfl <;> rfl

/-- Settles O33: the fresh engine of the five operands, and the two negations. -/
theorem constructWritesAFreshInstance : Obligations.ConstructWritesAFreshInstance := by
  intro s refin refout poly init xorout
  exact ⟨(exec_construct ⟨poly, init, refin, refout, xorout⟩ s).trans (construct_eq _ s), rfl, rfl⟩

/-- Settles O34: both commands are the shared construction with the row's parameters. -/
theorem presetEqualsExplicitConstruct : Obligations.PresetEqualsExplicitConstruct := by
  intro s row hrow
  exact ⟨(exec_preset hrow s).trans (exec_construct row.cfg s).symm, (exec_preset hrow s).trans (construct_eq row.cfg s)⟩

/-- Settles O50: the digest of the fresh engine, whose `REG` is `INIT` (R104, R151). -/
theorem digestOfTheEmptyInput : Obligations.DigestOfTheEmptyInput := by
  intro s refin refout poly init xorout
  exact ⟨_, _, (exec_construct ⟨poly, init, refin, refout, xorout⟩ s).trans (construct_eq _ s), exec_digest_of_engine rfl, rfl⟩

end Sys2Proof.Machine
end

section
/-! ## Append: the fold, the range check and what an append leaves (spec/41_append.md)

The fold of one byte as bit-serial division, `NARROW`, then how `APPEND` and `APPENDT` end in terms of the list of bytes they fold; each
part ends with the statements it settles. -/

namespace Sys2Proof.Machine

/-! ### The fold of one byte -/

/-- As long as the bits shifted out are 0 the polynomial is never added: the steps are shifts (R100). -/
theorem tableSteps_of_low_zero (rp : Half) {n : Nat} {w : Half} (h : ∀ k, k < n → w.getLsbD k = false) :
    tableSteps rp n w = w >>> n := by
  induction n generalizing w with
  | zero => exact (BitVec.ushiftRight_zero w).symm
  | succ n ih =>
    have hstep : tableStep rp w = w >>> 1 := by
      rw [tableStep_eq, h 0 n.succ_pos, if_neg Bool.false_ne_true, BitVec.xor_zero]
    have hrest : ∀ k, k < n → (w >>> 1).getLsbD k = false := fun k hk => by
      rw [BitVec.getLsbD_ushiftRight]
      exact h (1 + k) (by omega)
    rw [tableSteps, hstep, ih hrest, ← BitVec.shiftRight_add, Nat.add_comm]

/-- A 16-bit value is its high byte, in place, and its low byte. -/
theorem half_eq_high_xor_low (r : Half) : r = (r >>> 8 <<< 8) ^^^ (r.extractLsb' 0 8).setWidth 16 := by
  ext j hj
  by_cases hlow : j < 8
  · simp [hlow, BitVec.getLsbD_eq_getElem hj]
  · simp [hlow, BitVec.getLsbD_eq_getElem hj, Nat.add_sub_cancel' (Nat.le_of_not_lt hlow)]

/-- Eight steps shift the high byte down: no bit of it is shifted out. -/
theorem tableSteps_high (rp r : Half) : tableSteps rp 8 (r >>> 8 <<< 8) = r >>> 8 := by
  rw [tableSteps_of_low_zero rp fun k hk => by simp [hk]]
  ext j hj
  simpa using BitVec.lt_of_getLsbD (x := r) (i := 8 + j)

/-- Settles O37: the steps are linear, they shift the high byte of the register down, and the table holds them for the low byte. -/
theorem foldEqualsBitSerialDivision : Obligations.FoldEqualsBitSerialDivision := by
  intro e r b htable
  change fold e r b = tableSteps (rev16 e.cfg.poly) 8 (r ^^^ (adjustedByte e.cfg b).setWidth 16)
  generalize ha : adjustedByte e.cfg b = a
  calc fold e r b
      = (r >>> 8) ^^^ tableSteps (rev16 e.cfg.poly) 8 ((r.extractLsb' 0 8 ^^^ a).setWidth 16) := by
        rw [fold, ha, htable, entry_tableBuild]
    _ = tableSteps (rev16 e.cfg.poly) 8 ((r >>> 8 <<< 8) ^^^ ((r.extractLsb' 0 8).setWidth 16 ^^^ a.setWidth 16)) := by
        rw [tableSteps_xor, tableSteps_high, BitVec.setWidth_xor]
    _ = tableSteps (rev16 e.cfg.poly) 8 (r ^^^ a.setWidth 16) := by
        rw [← BitVec.xor_assoc, ← half_eq_high_xor_low]

/-! ### `NARROW` -/

/-- A character below 0x0100 is narrowed to its code (R126). -/
theorem narrow_of_high_zero {c : Half} (h : c.extractLsb' 8 8 = 0#8) : narrow c = c.extractLsb' 0 8 := if_pos h

/-- Any other character is narrowed to the open parameter (R126). -/
theorem narrow_of_high_ne_zero {c : Half} (h : c.extractLsb' 8 8 ≠ 0#8) : narrow c = Config.narrowHi c := if_neg h

/-- Settles O42: the two branches of `narrow`. -/
theorem narrowRule : Obligations.NarrowRule := fun _ => ⟨narrow_of_high_zero, narrow_of_high_ne_zero⟩

/-! ### How an append ends, by the bytes it folds -/

/-- The state once the bytes `bs` are folded into the engine `e`, with the response (`OK`, 0) (R124, R125). -/
def appended (s : State) (e : Engine) (bs : List Byte) : State :=
  (s.setEngine (some (e.setReg (bs.foldl (fold e) e.reg)))).setRsp (some ⟨.ok, 0#16⟩)

@[simp] theorem appended_rsp (s : State) (e : Engine) (bs : List Byte) : (appended s e bs).rsp = some ⟨.ok, 0#16⟩ := rfl

@[simp] theorem appended_mem (s : State) (e : Engine) (bs : List Byte) : (appended s e bs).mem = s.mem := rfl

@[simp] theorem appended_engine (s : State) (e : Engine) (bs : List Byte) :
    (appended s e bs).engine = some (e.setReg (bs.foldl (fold e) e.reg)) := rfl

/-- Folding no byte leaves everything but the response (R130). -/
theorem appended_nil {s : State} {e : Engine} (he : s.engine = some e) : appended s e [] = s.setRsp (some ⟨.ok, 0#16⟩) := by
  rw [appended, List.foldl_nil, Engine.setReg_self, ← he, State.setEngine_self]

/-- Folding more bytes is folding all of them at once (R128). -/
theorem appended_appended (s : State) (e : Engine) (bs cs : List Byte) :
    appended (appended s e bs) (e.setReg (bs.foldl (fold e) e.reg)) cs = appended s e (bs ++ cs) := by
  rw [appended, appended, appended, List.foldl_append]
  rfl

/-- `APPEND` of a whole buffer always passes the range check and folds the buffer's bytes (R122, R123). -/
theorem exec_append_whole {s : State} {e : Engine} (base buflen offset length : Word) (he : s.engine = some e) :
    exec (.append true false base buflen offset length) s = .next (appended s e (bytesAt s.mem base 0 buflen.toNat)) :=
  exec_append_of_inBounds base he ((inBounds_iff _ _).mpr (Nat.zero_add _).le)

/-- `APPEND` of a sub-range whose end, in the natural numbers, is within the buffer folds its bytes (R123). -/
theorem exec_append_subrange {s : State} {e : Engine} (base : Word) {buflen offset length : Word} (he : s.engine = some e)
    (h : offset.toNat + length.toNat ≤ buflen.toNat) :
    exec (.append true true base buflen offset length) s =
      .next (appended s e (bytesAt s.mem base offset.toNat length.toNat)) :=
  exec_append_of_inBounds base he ((inBounds_iff _ _).mpr h)

/-- `APPEND` of a sub-range whose end, in the natural numbers, is beyond the buffer raises `RangeError` (R123). -/
theorem exec_append_beyond {s : State} {e : Engine} (base : Word) {buflen offset length : Word} (he : s.engine = some e)
    (h : buflen.toNat < offset.toNat + length.toNat) :
    exec (.append true true base buflen offset length) s = .next (s.setRsp (some ⟨.rangeError, 0#16⟩)) :=
  exec_append_of_outOfBounds base he (decide_eq_false (Nat.not_le.mpr h))

/-! ### Failures and the range check -/

/-- A command that raises changes the response alone (R131). -/
theorem exec_raised {i : Instr} {s t : State} (h : exec i s = .next t) (hr : t.lastOk = false) :
    ∃ st, t = s.setRsp (some ⟨st, 0#16⟩) := by
  rcases exec_next_cases h with ⟨c, -, rfl⟩ | ⟨e, q, -, -, -, rfl⟩ | ⟨d, -, -, rfl⟩ | ⟨st, -, -, ht⟩
  · simp at hr
  · simp at hr
  · simp at hr
  · exact ⟨st, ht⟩

/-- Settles O12: each error's next state, `exec_raised` for any command, and the illegal packet taken and answered. -/
theorem failureLeavesStateUnchanged : Obligations.FailureLeavesStateUnchanged := by
  refine ⟨fun s e r base buflen offset length => exec_append_of_null r base buflen offset length,
    fun s e enc base nchars => exec_appendt_of_null enc base nchars,
    fun s e base buflen offset length => exec_append_beyond base, fun s t i => exec_raised, fun s t why hp h => ?_⟩
  cases h.symm.trans (step_of_pending_illegal hp)
  exact ⟨rfl, rfl⟩

/-- An empty sub-range that begins within the buffer, or at its end, changes nothing but the response (R123, R130). -/
theorem exec_append_empty_subrange {s : State} {e : Engine} (base : Word) {buflen offset : Word} (he : s.engine = some e)
    (h : offset.toNat ≤ buflen.toNat) :
    exec (.append true true base buflen offset 0#32) s = .next (s.setRsp (some ⟨.ok, 0#16⟩)) := by
  rw [exec_append_subrange (length := 0#32) base he h, ← appended_nil he]
  rfl

/-- Settles O40: a sub-range ends within the buffer or beyond it, and the corner cases follow. -/
theorem rangeCheckInTheNaturals : Obligations.RangeCheckInTheNaturals := by
  refine ⟨fun s e base buflen offset length he => ?_, fun s e base buflen offset length he => ?_,
    fun s e base buflen he => ⟨?_, ?_, fun offset length h => ?_⟩⟩
  · rcases Nat.lt_or_ge buflen.toNat (offset.toNat + length.toNat) with hbeyond | hin
    · exact ⟨_, exec_append_beyond base he hbeyond, fun hin => absurd hbeyond (Nat.not_lt.mpr hin), fun _ => rfl⟩
    · exact ⟨_, exec_append_subrange base he hin, fun _ => rfl, fun hbeyond => absurd hbeyond (Nat.not_lt.mpr hin)⟩
  · exact ⟨_, exec_append_whole base buflen offset length he, rfl⟩
  · exact exec_append_beyond base he buflen.isLt
  · exact exec_append_empty_subrange base he le_rfl
  · exact exec_append_beyond base he (Nat.lt_add_right _ h)

/-! ### Sub-ranges and split buffers -/

/-- Byte `off` of a buffer is byte 0 of the buffer that begins there, and so on upwards (R52, R129). -/
theorem bytesAt_add_base (m : List Host.Cell) (base offset : Word) (n : Nat) :
    bytesAt m (base + offset) 0 n = bytesAt m base offset.toNat n := by
  have hbase : base + offset = bufferAddr base offset.toNat := by simp [bufferAddr]
  refine List.map_congr_left fun i _ => congrArg (Memory.read m) ?_
  rw [Nat.zero_add, hbase, ← bufferAddr_add]
  rfl

/-- The bytes of a buffer are its first `k` and those after them. -/
theorem bytesAt_append (m : List Host.Cell) (base : Addr) (k n : Nat) :
    bytesAt m base 0 k ++ bytesAt m base k n = bytesAt m base 0 (k + n) := by
  simp [bytesAt, List.range_add, Function.comp_def]

/-- Settles O45: with no engine both raise `IllegalCommand`; with one they fold the same bytes. -/
theorem subrangeCorrectness : Obligations.SubrangeCorrectness := by
  intro s base buflen offset length h
  cases he : s.engine with
  | none =>
    have hv : s.valid = false := s.valid_eq_false_iff.mpr he
    rw [exec_append_of_not_valid _ _ _ _ _ _ hv, exec_append_of_not_valid _ _ _ _ _ _ hv]
  | some e => rw [exec_append_subrange base he h, exec_append_whole _ _ _ _ he, bytesAt_add_base]

/-- Settles O44: the two parts are the bytes of the whole, folded one after the other. -/
theorem incrementalEquivalence : Obligations.IncrementalEquivalence := by
  intro s e base n k he hk
  have hrest : k.toNat + (n - k).toNat = n.toNat := by
    rw [BitVec.toNat_sub_of_le (BitVec.le_def.mpr hk), Nat.add_sub_cancel' hk]
  refine ⟨_, _, exec_append_whole base k 0#32 0#32 he, exec_append_whole (base + k) (n - k) 0#32 0#32 (appended_engine s e _), ?_⟩
  rw [appended_appended, appended_mem, bytesAt_add_base, bytesAt_append, hrest]
  exact exec_append_whole base n 0#32 0#32 he

/-- Settles O46: no byte and no character is folded. -/
theorem emptyInputChangesNothing : Obligations.EmptyInputChangesNothing := by
  refine ⟨fun s e base buflen offset he => exec_append_empty_subrange base he, fun s e base offset length he => ?_,
    fun s e enc base he => ?_⟩
  · exact (exec_append_whole base 0#32 offset length he).trans (congrArg _ (appended_nil he))
  · exact (exec_appendt_of_text enc base 0#32 he).trans (congrArg _ (appended_nil he))

/-! ### Texts as buffers -/

/-- Two-byte mode folds the bytes of the text in ascending order (R125, R127). -/
theorem foldChars_twoByte (e : Engine) (m : List Host.Cell) (n : Nat) (a : Addr) (r : Half) :
    foldChars e m true n a r = foldBytes e m (2 * n) a r := by
  induction n generalizing a r with
  | zero => rfl
  | succ n ih =>
    have haddr : a + 1#32 + 1#32 = a + 2#32 := BitVec.add_assoc a 1#32 1#32
    rw [foldChars, ih, Nat.mul_succ, foldBytes, foldBytes, haddr]
    rfl

/-- Single-byte mode folds the narrowed characters in order (R125, R126). -/
theorem foldChars_singleByte (e : Engine) (m : List Host.Cell) (n : Nat) (base : Addr) (r : Half) :
    foldChars e m false n base r = ((List.range n).map fun k => narrow (charAt m base k)).foldl (fold e) r := by
  have hloop := foldChars_eq_foldl e m false base 0 n r
  simp only [bufferAddr_zero, Nat.zero_add] at hloop
  rw [hloop, List.foldl_map]
  rfl

/-- Two-byte `APPENDT` ends as the append of the text's bytes (R127). -/
theorem exec_appendt_twoByte {s : State} {e : Engine} (base nchars : Word) (he : s.engine = some e) :
    exec (.appendt true true base nchars) s = .next (appended s e (bytesAt s.mem base 0 (2 * nchars.toNat))) := by
  rw [exec_appendt_of_text true base nchars he, foldChars_twoByte, ← bufferAddr_zero base, foldBytes_eq_foldl, bufferAddr_zero]
  rfl

/-- Single-byte `APPENDT` ends as the append of the narrowed characters (R127). -/
theorem exec_appendt_singleByte {s : State} {e : Engine} (base nchars : Word) (he : s.engine = some e) :
    exec (.appendt true false base nchars) s =
      .next (appended s e ((List.range nchars.toNat).map fun k => narrow (charAt s.mem base k))) := by
  rw [exec_appendt_of_text false base nchars he, foldChars_singleByte]
  rfl

/-- A buffer that holds the low bytes of characters below 0x0100 holds the narrowed characters (R126). -/
theorem bytesAt_eq_narrowed {m m' : List Host.Cell} {base base' : Addr} {n : Nat}
    (h : ∀ k, k < n → (charAt m base k).extractLsb' 8 8 = 0x00#8 ∧
      Memory.read m' (bufferAddr base' k) = (charAt m base k).extractLsb' 0 8) :
    bytesAt m' base' 0 n = (List.range n).map fun k => narrow (charAt m base k) := by
  refine List.map_congr_left fun k hk => ?_
  obtain ⟨hhigh, hlow⟩ := h k (List.mem_range.mp hk)
  rw [Nat.zero_add, hlow, narrow_of_high_zero hhigh]

/-- Settles O43: with no engine both commands raise `IllegalCommand`; with one they fold the same bytes. -/
theorem appendtInTermsOfAppend : Obligations.AppendtInTermsOfAppend := by
  refine ⟨fun s base nchars hn => ?_, fun s m base base' nchars h => ?_⟩
  · cases he : s.engine with
    | none =>
      have hv : s.valid = false := s.valid_eq_false_iff.mpr he
      rw [exec_appendt_of_not_valid _ _ _ _ hv, exec_append_of_not_valid _ _ _ _ _ _ hv]
    | some e =>
      have hlen : (2#32 * nchars).toNat = 2 * nchars.toNat := by
        rw [BitVec.toNat_mul, BitVec.toNat_ofNat, Nat.mod_eq_of_lt hn]
      rw [exec_appendt_twoByte base nchars he, exec_append_whole base _ _ _ he, hlen]
  · cases he : s.engine with
    | none =>
      have hv : s.valid = false := s.valid_eq_false_iff.mpr he
      exact ⟨_, _, exec_appendt_of_not_valid true false base nchars hv,
        exec_append_of_not_valid (s := s.setMem m) true false base' nchars 0#32 0#32 hv, rfl, rfl⟩
    | some e =>
      refine ⟨_, _, exec_appendt_singleByte base nchars he, exec_append_whole (s := s.setMem m) base' nchars 0#32 0#32 he, ?_, rfl⟩
      rw [appended_engine, appended_engine, State.setMem_mem, bytesAt_eq_narrowed h]

end Sys2Proof.Machine
end

section
/-! ## Bit reversal: the reversals bit by bit and the commands that answer them (spec/42_bit_reversal.md)

What `REV8` and `REV16` put in each bit, and their algebra from it; then what the two commands answer and how their packets run; each
part ends with the statements it settles. -/

namespace Sys2Proof.Machine

/-! ### `REV8` and `REV16` bit by bit -/

/-- `REV8` is the ROM lookup, so its bits are those of the ROM's entry (R140). -/
theorem rev8_getLsbD (b : Byte) {k : Nat} (hk : k < 8) : (rev8 b).getLsbD k = b.getLsbD (7 - k) :=
  entry_rev8Rom_getLsbD b k hk

/-- Reversing a byte twice takes bit `k` to `7 - k` and back (R140). -/
theorem rev8_rev8 (b : Byte) : rev8 (rev8 b) = b := by
  refine BitVec.eq_of_getLsbD_eq fun k hk => ?_
  have hback : 7 - (7 - k) = k := by omega
  rw [rev8_getLsbD _ hk, rev8_getLsbD _ (by omega), hback]

/-- Bit `k` of the reversal of the byte at bit `n` is bit `7 - k` of that byte. -/
theorem rev8_field_getLsbD (v : Half) (n : Nat) {k : Nat} (hk : k < 8) :
    (rev8 (v.extractLsb' n 8)).getLsbD k = v.getLsbD (n + (7 - k)) := by
  have hin : 7 - k < 8 := by omega
  rw [rev8_getLsbD _ hk, BitVec.getLsbD_extractLsb', decide_eq_true hin, Bool.true_and]

/-- The low byte of the reversal comes from the high byte of the value, and its high byte from the low one (R142). -/
theorem rev16_getLsbD (v : Half) {k : Nat} (hk : k < 16) : (rev16 v).getLsbD k = v.getLsbD (15 - k) := by
  rw [rev16, BitVec.getLsbD_append]
  by_cases hlow : k < 8
  · have hbit : 8 + (7 - k) = 15 - k := by omega
    rw [if_pos hlow, rev8_field_getLsbD v 8 hlow, hbit]
  · have hbit : 0 + (7 - (k - 8)) = 15 - k := by omega
    rw [if_neg hlow, rev8_field_getLsbD v 0 (by omega), hbit]

/-- Reversing a 16-bit value twice takes bit `k` to `15 - k` and back (R143). -/
theorem rev16_rev16 (v : Half) : rev16 (rev16 v) = v := by
  refine BitVec.eq_of_getLsbD_eq fun k hk => ?_
  have hback : 15 - (15 - k) = k := by omega
  rw [rev16_getLsbD _ hk, rev16_getLsbD _ (by omega), hback]

/-- The reversal only moves bits, so it is linear over XOR (R143). -/
theorem rev16_xor (a b : Half) : rev16 (a ^^^ b) = rev16 a ^^^ rev16 b := by
  refine BitVec.eq_of_getLsbD_eq fun k hk => ?_
  rw [rev16_getLsbD _ hk, BitVec.getLsbD_xor, BitVec.getLsbD_xor, rev16_getLsbD _ hk, rev16_getLsbD _ hk]

/-- Settles O26: the bits of the ROM's entries, and the involution from them. -/
theorem rev8ReversesEightBits : Obligations.Rev8ReversesEightBits :=
  ⟨fun b _ => rev8_getLsbD b, fun _ => rfl, rev8_rev8⟩

/-- Settles O27: each half is a byte reversal of the other half; the worked examples are evaluated. -/
theorem rev16ReversesSixteenBits : Obligations.Rev16ReversesSixteenBits :=
  ⟨fun v _ => rev16_getLsbD v, fun _ => rfl, by decide +kernel⟩

/-- Settles O28: both laws are read off the bits. -/
theorem rev16RoundTripAndLinear : Obligations.Rev16RoundTripAndLinear := ⟨rev16_rev16, rev16_xor⟩

/-! ### The commands -/

/-- `REV8` responds with the reversed byte, zero-extended, and changes the response alone (R144). -/
theorem exec_rev8 (s : State) (v : Byte) : exec (.rev8 v) s = .next (s.setRsp (some ⟨.ok, (rev8 v).setWidth 16⟩)) :=
  respond_eq s _

/-- `REV16` responds with the reversed value and changes the response alone (R145). -/
theorem exec_rev16 (s : State) (v : Half) : exec (.rev16 v) s = .next (s.setRsp (some ⟨.ok, rev16 v⟩)) :=
  respond_eq s _

/-- A `REV8` header with a reserved bit set is an illegal packet of one word (R77, R82). -/
theorem decode_rev8_reservedBit {w : Word} (hopc : opcOf w = 0x6#4) (hres : w.extractLsb' 8 20 ≠ 0#20) :
    decode [w] = .illegal .reservedBit :=
  decode_eq_illegal_iff.mpr ⟨by simp [packetWords, hopc], by simp [decodeHeader, hopc, hres]⟩

/-- A `REV16` header with a reserved bit set is an illegal packet of one word (R78, R82). -/
theorem decode_rev16_reservedBit {w : Word} (hopc : opcOf w = 0x7#4) (hres : w.extractLsb' 16 12 ≠ 0#12) :
    decode [w] = .illegal .reservedBit :=
  decode_eq_illegal_iff.mpr ⟨by simp [packetWords, hopc], by simp [decodeHeader, hopc, hres]⟩

/-- Zero extension leaves the high byte 0. -/
theorem high_setWidth (b : Byte) : (b.setWidth 16).extractLsb' 8 8 = 0x00#8 := by
  ext j hj
  simp

/-- Settles O29: `REV8` only responds, its packet is a whole one, and the worked values are evaluated. -/
theorem rev8Command : Obligations.Rev8Command := by
  refine ⟨exec_rev8, fun v => high_setWidth _, fun v s rest hh => ?_, fun w => decode_rev8_reservedBit, by decide +kernel⟩
  exact step_of_packet_instr hh (packetWords_rev8 v) (decode_rev8Packet v [])

/-- Settles O30: `REV16` only responds, its packet is a whole one, and the second of two in a row undoes the first. -/
theorem rev16Command : Obligations.Rev16Command := by
  refine ⟨exec_rev16, fun v s rest hh => ?_, fun s v => ?_, fun w => decode_rev16_reservedBit, by decide +kernel⟩
  · exact step_of_packet_instr hh (packetWords_rev16 v) (decode_rev16Packet v [])
  · refine ⟨_, _, rev16 v, exec_rev16 s v, rfl, exec_rev16 _ (rev16 v), ?_⟩
    rw [State.setRsp_rsp, rev16_rev16]

end Sys2Proof.Machine
end

section
/-! ## The digest: its value, `REG` from it, and runs that keep it (spec/43_digest.md) -/

namespace Sys2Proof.Machine

/-! ### The value -/

/-- Settles O48: `DIGEST` answers `digestOf`, which is `REG` or its reversal by `REFOUT`. -/
theorem digestValue : Obligations.DigestValue := by
  intro s e he
  rw [exec_digest_of_engine he, digestOf_eq]
  exact ⟨fun hout => by rw [if_pos hout], fun hout => by rw [if_neg (Bool.eq_false_iff.mp hout)]⟩

/-- XOR with `XOROUT` undoes the last step of the digest, and a second reversal undoes the first (R154). -/
theorem reg_eq_of_digestOf (e : Engine) :
    e.reg = if e.cfg.refout = true then digestOf e ^^^ e.cfg.xorout else rev16 (digestOf e ^^^ e.cfg.xorout) := by
  have hxor : digestOf e ^^^ e.cfg.xorout = if e.cfg.refout = true then e.reg else rev16 e.reg := by
    rw [digestOf_eq, BitVec.xor_assoc, BitVec.xor_self, BitVec.xor_zero]
  rw [hxor]
  by_cases hout : e.cfg.refout = true
  · rw [if_pos hout, if_pos hout]
  · rw [if_neg hout, if_neg hout, rev16_rev16]

/-- Settles O52: the response that ended `OK` is the digest of the engine. -/
theorem regFromTheDigest : Obligations.RegFromTheDigest := by
  intro s t e d he h hr
  obtain ⟨e', he', (hd : d = digestOf e')⟩ := exec_digest_ok h hr rfl
  cases he.symm.trans he'
  rw [hd]
  exact reg_eq_of_digestOf e

/-! ### Two digests -/

/-- `DIGEST` reads the engine alone: with equal engines, or with none, it gives one response (R151). -/
theorem exec_digest_same_of_engine_eq {s t : State} (h : t.engine = s.engine) :
    ∃ r, exec .digest s = .next (s.setRsp (some r)) ∧ exec .digest t = .next (t.setRsp (some r)) := by
  cases he : s.engine with
  | none =>
    exact ⟨_, exec_digest_of_not_valid (s.valid_eq_false_iff.mpr he), exec_digest_of_not_valid (t.valid_eq_false_iff.mpr (h.trans he))⟩
  | some e => exact ⟨_, exec_digest_of_engine he, exec_digest_of_engine (h.trans he)⟩

/-- A run with no append or construction that ended `OK` leaves the whole engine (R152). -/
theorem QuietRun.engine_eq {s t : State} (h : QuietRun s t) : t.engine = s.engine := by
  induction h with
  | done s => rfl
  | command s t u i h quiet rest ih =>
    refine ih.trans ?_
    rcases quiet with ⟨hc, ha⟩ | hraised
    · exact exec_keeps_engine hc ha h
    · exact exec_keeps_engine_of_raised h hraised
  | illegal s t u why hp h rest ih =>
    cases h.symm.trans (step_of_pending_illegal hp)
    exact ih
  | write s t u a b moves hh h rest ih =>
    cases h.symm.trans (step_of_write hh)
    exact ih

/-- Settles O51: a quiet run keeps the engine, which is all `DIGEST` reads. -/
theorem digestIsIdempotent : Obligations.DigestIsIdempotent :=
  fun _ _ hrun => exec_digest_same_of_engine_eq hrun.engine_eq

end Sys2Proof.Machine
end

section
/-! ## The variant catalog: the presets' worked values and the one-shot helpers (spec/44_variant_catalog.md)

The state a construction leaves and the digest of a list of bytes folded from there; then the runs the catalog lists are that digest,
with its values evaluated. -/

namespace Sys2Proof.Machine

/-! ### From a construction to a digest -/

/-- The state a construction leaves: a fresh engine and the response (`OK`, 0) (R104). -/
def constructed (s : State) (c : Cfg) : State := (s.setEngine (some (freshEngine c))).setRsp (some ⟨.ok, 0#16⟩)

theorem constructed_engine (s : State) (c : Cfg) : (constructed s c).engine = some (freshEngine c) := rfl

/-- A preset leaves the state a construction with the parameters of its row leaves (R106, R160). -/
theorem exec_preset_constructed {row : PresetRow} (h : row ∈ presetRows) (s : State) :
    exec row.instr s = .next (constructed s row.cfg) :=
  (exec_preset h s).trans (construct_eq row.cfg s)

/-- `PRESET.IEEE8023` leaves the state a construction with its parameters leaves (R163). -/
theorem exec_presetIeee8023 (s : State) : exec .presetIeee8023 s = .next (constructed s cfgIeee8023) :=
  construct_eq cfgIeee8023 s

/-- `REG` once the bytes `bs` are folded into a fresh engine. -/
def regAfterBytes (c : Cfg) (bs : List Byte) : Half := bs.foldl (fold (freshEngine c)) c.init

/-- The digest of the bytes `bs` under a configuration. -/
def digestOfBytes (c : Cfg) (bs : List Byte) : Half := digestOf ((freshEngine c).setReg (regAfterBytes c bs))

/-- The state once the bytes `bs` are folded into a fresh engine. -/
def appendedFresh (s : State) (c : Cfg) (bs : List Byte) : State := appended (constructed s c) (freshEngine c) bs

theorem appendedFresh_engine (s : State) (c : Cfg) (bs : List Byte) :
    (appendedFresh s c bs).engine = some ((freshEngine c).setReg (regAfterBytes c bs)) := rfl

/-- `DIGEST` after the bytes `bs` responds with their digest (R151). -/
theorem exec_digest_appendedFresh (s : State) (c : Cfg) (bs : List Byte) :
    exec .digest (appendedFresh s c bs) = .next ((appendedFresh s c bs).setRsp (some ⟨.ok, digestOfBytes c bs⟩)) :=
  exec_digest_of_engine (appendedFresh_engine s c bs)

/-- `DIGEST` right after a construction responds with the digest of no bytes (R151). -/
theorem exec_digest_constructed (s : State) (c : Cfg) :
    exec .digest (constructed s c) = .next ((constructed s c).setRsp (some ⟨.ok, digestOfBytes c []⟩)) :=
  exec_digest_of_engine (constructed_engine s c)

/-- The check input, wherever the buffer space holds it, is what its append folds (R169). -/
theorem exec_append_checkInput {s : State} {base : Addr} (c : Cfg) (h : bytesAt s.mem base 0 9 = checkInput) :
    exec (.append true false base 9#32 0#32 0#32) (constructed s c) = .next (appendedFresh s c checkInput) := by
  have hbytes : bytesAt (constructed s c).mem base 0 (9#32).toNat = checkInput := h
  rw [exec_append_whole base 9#32 0#32 0#32 (constructed_engine s c), hbytes, appendedFresh]

/-! ### The presets -/

/-- What the catalog lists of each preset's word and table (R162 to R168). -/
theorem presetRows_tables : ∀ row ∈ presetRows, decode [row.w0] = .instr row.instr ∧
    entry (tableBuild row.cfg.poly) 0x01#8 = row.t01 ∧ entry (tableBuild row.cfg.poly) 0x80#8 = row.t80 := by
  decide +kernel

/-- What the catalog lists of each preset's digests, and of `REG` after the check input (R162 to R169). -/
theorem presetRows_digests : ∀ row ∈ presetRows, digestOfBytes row.cfg [] = row.emptyDigest ∧
    regAfterBytes row.cfg checkInput = row.regAfter ∧ digestOfBytes row.cfg checkInput = row.check := by
  decide +kernel

/-- Settles O35: the digests are those of no bytes and of the check input from the state the preset leaves. -/
theorem presetStatesAndWorkedExamples : Obligations.PresetStatesAndWorkedExamples := by
  refine ⟨fun s => rfl, fun s base h row hrow => ?_⟩
  obtain ⟨hdecode, ht01, ht80⟩ := presetRows_tables row hrow
  obtain ⟨hempty, hreg, hcheck⟩ := presetRows_digests row hrow
  refine ⟨hdecode, ht01, ht80, rfl, rfl, constructed s row.cfg, appendedFresh s row.cfg checkInput,
    exec_preset_constructed hrow s, rfl, ?_, exec_append_checkInput row.cfg h, ?_, ?_⟩
  · rw [exec_digest_constructed, hempty]
  · rw [appendedFresh_engine, hreg]
    rfl
  · rw [exec_digest_appendedFresh, hcheck]

/-- Settles O36: the check values are those of the seven rows. -/
theorem presetCheckValues : Obligations.PresetCheckValues := by
  intro s base h v hv
  change v ∈ presetRows.map fun row => (row.instr, row.check) at hv
  obtain ⟨row, hrow, rfl⟩ := List.mem_map.mp hv
  obtain ⟨-, -, hcheck⟩ := presetRows_digests row hrow
  exact ⟨_, _, _, exec_preset_constructed hrow s, exec_append_checkInput row.cfg h, exec_digest_appendedFresh s row.cfg checkInput,
    by rw [State.setRsp_rsp, hcheck]⟩

/-! ### The run of a helper -/

/-- A command that ends `OK` is followed by the next one (R170). -/
theorem runCommands_of_ok {i : Instr} {s t : State} (is : List Instr) (h : exec i s = .next t) (hok : t.lastOk = true) :
    runCommands (i :: is) s = runCommands is t := by
  simp only [runCommands, h, hok, if_true]

/-- The run stops after a command that raises (R170). -/
theorem runCommands_of_raised {i : Instr} {s t : State} (is : List Instr) (h : exec i s = .next t) (hr : t.lastOk = false) :
    runCommands (i :: is) s = .next t := by
  simp only [runCommands, h, hr, Bool.false_eq_true, if_false]

/-- The expansion of a helper: its append `i` between the construction and the digest (R87). -/
def helperCommands (i : Instr) : List Instr := [.presetIeee8023, i, .digest]

/-- The append of a helper is issued to the engine the construction made (R170). -/
theorem runCommands_helper (i : Instr) (s : State) :
    runCommands (helperCommands i) s = runCommands [i, .digest] (constructed s cfgIeee8023) :=
  runCommands_of_ok _ (exec_presetIeee8023 s) rfl

/-- A helper whose append raises ends there, and the error is its result (R170). -/
theorem runCommands_helper_of_raised {i : Instr} {s t : State} (h : exec i (constructed s cfgIeee8023) = .next t)
    (hr : t.lastOk = false) : runCommands (helperCommands i) s = .next t :=
  (runCommands_helper i s).trans (runCommands_of_raised _ h hr)

/-- A helper whose append ends `OK` ends with the digest of the engine that append left (R170). -/
theorem runCommands_helper_of_ok {i : Instr} {s t : State} {e : Engine} (h : exec i (constructed s cfgIeee8023) = .next t)
    (hok : t.lastOk = true) (he : t.engine = some e) :
    runCommands (helperCommands i) s = .next (t.setRsp (some ⟨.ok, digestOf e⟩)) := by
  rw [runCommands_helper, runCommands_of_ok _ h hok, runCommands_of_ok _ (exec_digest_of_engine he) rfl, runCommands]

/-- A helper whose append folds the bytes `bs` ends with their digest. -/
theorem runCommands_helper_of_bytes {i : Instr} {s : State} {bs : List Byte}
    (h : exec i (constructed s cfgIeee8023) = .next (appendedFresh s cfgIeee8023 bs)) :
    runCommands (helperCommands i) s =
      .next ((appendedFresh s cfgIeee8023 bs).setRsp (some ⟨.ok, digestOfBytes cfgIeee8023 bs⟩)) :=
  runCommands_helper_of_ok h rfl (appendedFresh_engine s cfgIeee8023 bs)

/-- The result of a helper whose append folds the bytes `bs`. -/
theorem runCommands_helper_answers {i : Instr} {s : State} {bs bs' : List Byte} {d : Half}
    (h : exec i (constructed s cfgIeee8023) = .next (appendedFresh s cfgIeee8023 bs')) (hbytes : bs' = bs)
    (hdigest : digestOfBytes cfgIeee8023 bs = d) :
    ∃ t, runCommands (helperCommands i) s = .next t ∧ t.rsp = some ⟨.ok, d⟩ := by
  subst hbytes hdigest
  exact ⟨_, runCommands_helper_of_bytes h, rfl⟩

/-- The digest of the check input under `IEEE8023` is its check value (R169). -/
theorem digestOfBytes_ieee8023_checkInput : digestOfBytes cfgIeee8023 checkInput = 0xBB3D#16 := by decide +kernel

/-! ### `COMPUTE` -/

/-- Settles O53: the buffer's bytes are the check input, or none. -/
theorem computeHelper : Obligations.ComputeHelper := by
  refine ⟨fun buf => rfl, by decide, fun s => ?_, fun s base h => ?_, fun s base => ?_⟩
  · exact ⟨_, runCommands_helper_of_raised (exec_append_of_null false 0#32 0#32 0#32 0#32 (constructed_engine s _)) rfl, rfl⟩
  · have happend := exec_append_checkInput cfgIeee8023 h
    exact ⟨_, _, _, exec_presetIeee8023 s, rfl, happend, rfl, exec_digest_appendedFresh s cfgIeee8023 checkInput,
      by rw [State.setRsp_rsp, digestOfBytes_ieee8023_checkInput], runCommands_helper_of_bytes happend⟩
  · exact runCommands_helper_answers (bs := []) (exec_append_whole base 0#32 0#32 0#32 (constructed_engine s _)) rfl (by decide +kernel)

/-! ### `COMPUTER` -/

/-- The bytes of a sub-range are cut out of those of the buffer (R129). -/
theorem bytesAt_eq_take_drop (m : List Host.Cell) (base : Addr) {off n size : Nat} (h : off + n ≤ size) :
    bytesAt m base off n = ((bytesAt m base 0 size).drop off).take n := by
  refine List.ext_getElem (by simp [bytesAt]; omega) fun k _ _ => ?_
  simp [bytesAt]

/-- Settles O54: bytes 2 to 10 of the buffer are the check input. -/
theorem computerHelper : Obligations.ComputerHelper := by
  refine ⟨fun buf off len => rfl, fun s off len => ?_, fun s base buflen off len h => ?_, fun s base h => ?_⟩
  · exact ⟨_, runCommands_helper_of_raised (exec_append_of_null false 0#32 0#32 0#32 0#32 (constructed_engine s _)) rfl, rfl⟩
  · exact ⟨_, runCommands_helper_of_raised (exec_append_beyond base (constructed_engine s _) h) rfl, rfl⟩
  · have hbytes : bytesAt s.mem base 2 9 = checkInput := by
      rw [bytesAt_eq_take_drop (size := 13) _ _ (by decide), h]
      rfl
    exact runCommands_helper_answers (exec_append_subrange base (constructed_engine s _) (by decide)) hbytes
      digestOfBytes_ieee8023_checkInput

/-! ### `COMPUTET` -/

/-- The bytes of a text are those of its characters, the more significant first (R53). -/
theorem bytesAt_eq_charBytes (m : List Host.Cell) (base : Addr) (n : Nat) :
    bytesAt m base 0 (2 * n) =
      (List.range n).flatMap fun k => [(charAt m base k).extractLsb' 8 8, (charAt m base k).extractLsb' 0 8] := by
  induction n with
  | zero => rfl
  | succ n ih =>
    have hchar : bytesAt m base (2 * n) 2 = [(charAt m base n).extractLsb' 8 8, (charAt m base n).extractLsb' 0 8] := by
      rw [charAt, extract_append_top, extract_append_low]
      rfl
    rw [Nat.mul_succ, ← bytesAt_append, ih, hchar, List.range_succ, List.flatMap_append, List.flatMap_singleton]

/-- Settles O55: single-byte mode folds 41 42, two-byte mode 00 41 00 42. -/
theorem computetHelper : Obligations.ComputetHelper := by
  refine ⟨fun txt enc => rfl, fun s enc => ?_, fun s base h0 h1 => ⟨?_, ?_⟩⟩
  · exact ⟨_, runCommands_helper_of_raised (exec_appendt_of_null enc 0#32 0#32 (constructed_engine s _)) rfl, rfl⟩
  · have hbytes : (List.range 2).map (fun k => narrow (charAt s.mem base k)) = [0x41#8, 0x42#8] := by
      simp [List.range_succ_eq_map, h0, h1, narrow_of_high_zero]
    exact runCommands_helper_answers (exec_appendt_singleByte base 2#32 (constructed_engine s _)) hbytes (by decide +kernel)
  · have hbytes : bytesAt s.mem base 0 4 = [0x00#8, 0x41#8, 0x00#8, 0x42#8] := by
      rw [bytesAt_eq_charBytes s.mem base 2]
      simp [List.range_succ_eq_map, h0, h1]
    exact runCommands_helper_answers (exec_appendt_twoByte base 2#32 (constructed_engine s _)) hbytes (by decide +kernel)

/-! ### The engine a helper leaves -/

/-- Every helper is the expansion around one append, which constructs nothing (R170 to R173). -/
theorem assemble_helper {a : Asm}
    (ha : (∃ buf, a = .compute buf) ∨ (∃ buf off len, a = .computer buf off len) ∨ (∃ txt enc, a = .computet txt enc)) :
    ∃ i, assemble a = helperCommands i ∧ constructs i = false ∧ appends i = true := by
  rcases ha with ⟨buf, rfl⟩ | ⟨buf, off, len, rfl⟩ | ⟨txt, enc, rfl⟩
  · exact ⟨asmAppend buf, rfl, by cases buf <;> rfl, by cases buf <;> rfl⟩
  · exact ⟨asmAppendRange buf off len, rfl, by cases buf <;> rfl, by cases buf <;> rfl⟩
  · exact ⟨asmAppendt txt enc, rfl, by cases txt <;> rfl, by cases txt <;> rfl⟩

/-- Settles O56: the append writes `REG` of the constructed engine and is followed by the digest, or raises and leaves it. -/
theorem helperOverwritesTheEngine : Obligations.HelperOverwritesTheEngine := by
  intro s a ha
  obtain ⟨i, hasm, hc, happ⟩ := assemble_helper ha
  simp only [runAsm, hasm]
  rcases exec_cases i (constructed s cfgIeee8023) with ⟨_, hc', -⟩ | ⟨e, q, -, -, he, hx⟩ | ⟨_, -, happ', -⟩ | ⟨st, -, hst, hx⟩
  · simp [hc] at hc'
  · obtain rfl : freshEngine cfgIeee8023 = e := Option.some.inj he
    exact ⟨_, _, _, runCommands_helper_of_ok hx rfl rfl, rfl, rfl, rfl, rfl, fun _ => rfl, fun hne => absurd rfl hne⟩
  · simp [happ] at happ'
  · refine ⟨_, _, _, runCommands_helper_of_raised hx ?_, rfl, rfl, rfl, rfl, fun hok => absurd hok hst, fun _ => ⟨rfl, rfl⟩⟩
    simpa using hst

end Sys2Proof.Machine
end

section
/-! ## Exceptions: the first error that applies, and that nothing else fails (spec/60_exceptions.md)

The `STATUS` of every command as one function of the command and the state; `exec` is proved to end with it, and the rules about errors
are read off it. -/

namespace Sys2Proof.Machine

/-- The `STATUS` the rules give a command: the first error of R196 that applies, else `OK`. -/
def endStatus (i : Instr) (s : State) : Status :=
  match i with
  | .append p r _ buflen offset length =>
    if s.valid = false then .illegalCommand
    else if p = false then .invalidInput
    else if r = true ∧ buflen.toNat < offset.toNat + length.toNat then .rangeError
    else .ok
  | .appendt p _ _ _ => if s.valid = false then .illegalCommand else if p = false then .invalidInput else .ok
  | .digest => if s.valid = false then .illegalCommand else .ok
  | .construct _ _ _ _ _ => .ok
  | .presetArc => .ok
  | .presetIeee8023 => .ok
  | .presetCcitt => .ok
  | .presetKermit => .ok
  | .presetX25 => .ok
  | .presetXmodem => .ok
  | .presetZmodem => .ok
  | .rev8 _ => .ok
  | .rev16 _ => .ok

/-- The command ends with a next state whose response has this `STATUS`. -/
def EndsWith (i : Instr) (s : State) (st : Status) : Prop := ∃ t r, exec i s = .next t ∧ t.rsp = some r ∧ r.status = st

/-- The answer of a command that ends with `st` has the `STATUS` `st`. -/
theorem EndsWith.rsp_status {i : Instr} {s t : State} {st : Status} (hends : EndsWith i s st) (h : exec i s = .next t) :
    ∃ q, t.rsp = some q ∧ q.status = st := by
  obtain ⟨t', q, hx, hq, hst⟩ := hends
  cases h.symm.trans hx
  exact ⟨q, hq, hst⟩

/-! ### Every command ends with its status -/

/-- The effective sub-range is out of bounds only when one is given and its end is beyond the buffer (R122, R123, R192). -/
theorem inBounds_effectiveRange_iff (r : Bool) (buflen offset length : Word) :
    inBounds (effectiveRange r buflen offset length) buflen = true ↔ ¬ (r = true ∧ buflen.toNat < offset.toNat + length.toNat) := by
  rw [inBounds_iff]
  cases r with
  | false => simp [effectiveRange]
  | true => simp [effectiveRange]

/-- `APPEND` checks `VALID`, then `P`, then the range (R124, R196). -/
theorem exec_append_endsWith (p r : Bool) (base buflen offset length : Word) (s : State) :
    EndsWith (.append p r base buflen offset length) s (endStatus (.append p r base buflen offset length) s) := by
  cases he : s.engine with
  | none =>
    have hv : s.valid = false := s.valid_eq_false_iff.mpr he
    exact ⟨_, _, exec_append_of_not_valid p r base buflen offset length hv, rfl, by simp [endStatus, hv]⟩
  | some e =>
    have hv : s.valid = true := s.valid_eq_true_iff.mpr ⟨e, he⟩
    cases p with
    | false => exact ⟨_, _, exec_append_of_null r base buflen offset length he, rfl, by simp [endStatus, hv]⟩
    | true =>
      by_cases hbeyond : r = true ∧ buflen.toNat < offset.toNat + length.toNat
      · obtain ⟨rfl, hlt⟩ := hbeyond
        exact ⟨_, _, exec_append_beyond base he hlt, rfl, by simp [endStatus, hv, hlt]⟩
      · have hin := (inBounds_effectiveRange_iff r buflen offset length).mpr hbeyond
        exact ⟨_, _, exec_append_of_inBounds base he hin, rfl, by simp [endStatus, hv, hbeyond]⟩

/-- `APPENDT` checks `VALID`, then `P` (R125, R196). -/
theorem exec_appendt_endsWith (p enc : Bool) (base nchars : Word) (s : State) :
    EndsWith (.appendt p enc base nchars) s (endStatus (.appendt p enc base nchars) s) := by
  cases he : s.engine with
  | none =>
    have hv : s.valid = false := s.valid_eq_false_iff.mpr he
    exact ⟨_, _, exec_appendt_of_not_valid p enc base nchars hv, rfl, by simp [endStatus, hv]⟩
  | some e =>
    have hv : s.valid = true := s.valid_eq_true_iff.mpr ⟨e, he⟩
    cases p with
    | false => exact ⟨_, _, exec_appendt_of_null enc base nchars he, rfl, by simp [endStatus, hv]⟩
    | true => exact ⟨_, _, exec_appendt_of_text enc base nchars he, rfl, by simp [endStatus, hv]⟩

/-- `DIGEST` checks `VALID` alone (R151). -/
theorem exec_digest_endsWith (s : State) : EndsWith .digest s (endStatus .digest s) := by
  cases he : s.engine with
  | none =>
    have hv : s.valid = false := s.valid_eq_false_iff.mpr he
    exact ⟨_, _, exec_digest_of_not_valid hv, rfl, by simp [endStatus, hv]⟩
  | some e =>
    have hv : s.valid = true := s.valid_eq_true_iff.mpr ⟨e, he⟩
    exact ⟨_, _, exec_digest_of_engine he, rfl, by simp [endStatus, hv]⟩

/-- Every command ends with its status in every state: the commands that check nothing respond `OK` at once (R194, R196). -/
theorem exec_endsWith (i : Instr) (s : State) : EndsWith i s (endStatus i s) := by
  cases i with
  | append p r base buflen offset length => exact exec_append_endsWith p r base buflen offset length s
  | appendt p enc base nchars => exact exec_appendt_endsWith p enc base nchars s
  | digest => exact exec_digest_endsWith s
  | _ => exact ⟨_, _, rfl, rfl, rfl⟩

/-! ### What a status can be -/

/-- A construction is always `OK` (R194). -/
theorem endStatus_of_constructs {i : Instr} (s : State) (hc : constructs i = true) : endStatus i s = .ok := by
  cases i with
  | append => cases hc
  | appendt => cases hc
  | digest => cases hc
  | _ => rfl

/-- `DIGEST` raises nothing but `IllegalCommand` (R194). -/
theorem endStatus_digest (s : State) : endStatus .digest s = .ok ∨ endStatus .digest s = .illegalCommand := by
  simp only [endStatus]
  split
  · exact .inr rfl
  · exact .inl rfl

/-- `APPENDT` has no range to check (R192). -/
theorem endStatus_appendt_ne_rangeError (p enc : Bool) (base nchars : Word) (s : State) :
    endStatus (.appendt p enc base nchars) s ≠ .rangeError := by
  simp only [endStatus]
  split
  · decide
  · split <;> decide

/-! ### The obligations -/

/-- Settles O13: an illegal packet is answered before any other check, and each command ends with its `endStatus`. -/
theorem firstErrorThatApplies : Obligations.FirstErrorThatApplies := by
  refine ⟨fun s t why hp h => ?_,
    fun s t p r base buflen offset length => (exec_append_endsWith p r base buflen offset length s).rsp_status,
    fun s t p enc base nchars => (exec_appendt_endsWith p enc base nchars s).rsp_status,
    fun s t => (exec_digest_endsWith s).rsp_status⟩
  cases h.symm.trans (step_of_pending_illegal hp)
  rfl

/-- Settles O14: every command ends with its `endStatus`, which allows each command no more than R194 does. -/
theorem nothingElseFails : Obligations.NothingElseFails := by
  intro i s
  obtain ⟨t, r, hx, hr, hst⟩ := exec_endsWith i s
  refine ⟨t, r, hx, hr, ?_⟩
  rw [hst]
  refine ⟨endStatus_of_constructs s, ?_, ?_, ?_, ?_⟩
  · rintro v rfl
    rfl
  · rintro v rfl
    rfl
  · rintro rfl
    exact endStatus_digest s
  · rintro p enc base nchars rfl
    exact endStatus_appendt_ne_rangeError p enc base nchars s

/-- Settles O59, by `step_of_idle`. -/
theorem idleEngineKeepsItsState : Obligations.IdleEngineKeepsItsState := fun _ => step_of_idle

end Sys2Proof.Machine
end

section
/-! ## Reset: the step that takes one (spec/70_reset_and_hazards.md R220) -/

namespace Sys2Proof.Machine

/-- What a reset leaves, field by field: no instance and no response (R220), the buffer space and the host's moves as they are (log 1). -/
theorem takeReset_eq (s : State) : takeReset s = { engine := none, mem := s.mem, rsp := none, host := s.host } :=
  rfl

/-- Settles O17: the step at a reset is `takeReset` on the moves after it, and `takeReset_eq` says what that leaves. -/
theorem resetEvent : Obligations.ResetEvent := by
  intro s rest hh
  rw [step_of_reset hh, takeReset_eq, State.setHost_mem, State.setHost_host]

end Sys2Proof.Machine
end
